-- ==== Sys2Proof/Word.lean ====
section
/-! DEFINITION. The widths the spec names (00_scope.md section 4): 32-bit words, 16-bit halves, 8-bit codes and bytes. -/

namespace Sys2Proof

/-- A command word, payload word, output word or register (decisions D2, D4). -/
abbrev Word := BitVec 32

/-- A raw sample, a decimation factor or a counter (decision D8). -/
abbrev Half := BitVec 16

/-- A result code, a register index, or one byte of a serialised word (R99, R47, R33). -/
abbrev Byte := BitVec 8

end Sys2Proof
end

