-- ==== Sys2Proof/Syntax.lean ====
section
/-! DEFINITION. The abstract syntax: the nine operations of R45, the nine registers of 10_state.md section 2, the six
result codes of R99, and a command with its payload (R27). -/

namespace Sys2Proof

/-- The operations of R45, one constructor per row of spec/opcode_table.json. `idx` is the REG field of R43, any 8-bit
index: an unassigned one is a legal encoding that the command check rejects with BAD_REG (R47, R101). The payload is no
part of the instruction: a word decodes the same whatever payload comes with it (R46). -/
inductive Instr where
  | nop
  | iqdec
  | fmdem
  | amdem
  | auddec
  | pipe
  | rdreg (idx : BitVec 8)
  | wrreg (idx : BitVec 8)
  | rstst
deriving DecidableEq, Repr

/-- The nine registers of the register map, in index order 0x00 to 0x08 (R9). -/
inductive Reg where
  | iqN
  | audN
  | audGain
  | mode
  | fmPrevRe
  | fmPrevIm
  | audAcc
  | audCnt
  | status
deriving DecidableEq, Repr

/-- The result codes of R99. The reserved codes 0x06 to 0xFF have no constructor: they are never returned. -/
inductive ResultCode where
  | ok
  | illegalOp
  | rsvdBits
  | badReg
  | badLength
  | badValue
deriving DecidableEq, Repr

/-- A command: one 32-bit command word and a finite payload of 32-bit words, possibly empty (R27). -/
structure Command where
  word : Word
  payload : List Word
deriving DecidableEq, Repr

end Sys2Proof
end

