-- ==== Sys2Proof/WellFormed.lean ====
section
/-! DEFINITION. Which instructions are well-formed: the register operand names a register (R19, R47). -/

namespace Sys2Proof

/-- An instruction is well-formed when its register operand, if it has one, is one of the assigned indices 0x00 to 0x08.
An ill-formed one still has an encoding and a meaning: the block rejects it with BAD_REG (R19). -/
def Instr.wf : Instr → Bool
  | .nop => true
  | .iqdec => true
  | .fmdem => true
  | .amdem => true
  | .auddec => true
  | .pipe => true
  | .rdreg idx => decide (idx.toNat ≤ 8)
  | .wrreg idx => decide (idx.toNat ≤ 8)
  | .rstst => true

end Sys2Proof
end

