-- ==== Sys2Proof/Decode.lean ====
section
/-! DEFINITION. The command word: its fields (R43), decoding (R46, R51, R52), encoding (R45), and the byte order of a
serialised word (R33). -/

namespace Sys2Proof

/-- The OP field, bits [3:0] (R43). -/
def opField (cmd : Word) : BitVec 4 := cmd.extractLsb' 0 4

/-- The REG field, bits [11:4] (R43, R47). -/
def regField (cmd : Word) : BitVec 8 := cmd.extractLsb' 4 8

/-- The RSVD field, bits [31:12] (R43). -/
def rsvdField (cmd : Word) : BitVec 20 := cmd.extractLsb' 12 20

/-- The operation an OP code and a REG field select (the table of R45); `none` for the reserved codes 0x9 to 0xF. -/
def instrOf (op : BitVec 4) (reg : BitVec 8) : Option Instr :=
  match op.toNat with
  | 0 => some .nop
  | 1 => some .iqdec
  | 2 => some .fmdem
  | 3 => some .amdem
  | 4 => some .auddec
  | 5 => some .pipe
  | 6 => some (.rdreg reg)
  | 7 => some (.wrreg reg)
  | 8 => some .rstst
  | _ => none

/-- Whether the operation uses its REG field (R43: RDREG and WRREG only). -/
def Instr.usesReg : Instr → Bool
  | .rdreg _ => true
  | .wrreg _ => true
  | .nop => false
  | .iqdec => false
  | .fmdem => false
  | .amdem => false
  | .auddec => false
  | .pipe => false
  | .rstst => false

/-- Decoding is total and classifies every word: ILLEGAL_OP is tested first, then RSVD_BITS (R46, R51, R52). -/
def decode (cmd : Word) : Except ResultCode Instr :=
  match instrOf (opField cmd) (regField cmd) with
  | none => .error .illegalOp
  | some i =>
    if rsvdField cmd ≠ 0 then .error .rsvdBits
    else if i.usesReg = false ∧ regField cmd ≠ 0 then .error .rsvdBits
    else .ok i

/-- The OP code of an operation (R45). -/
def Instr.op : Instr → BitVec 4
  | .nop => 0x0
  | .iqdec => 0x1
  | .fmdem => 0x2
  | .amdem => 0x3
  | .auddec => 0x4
  | .pipe => 0x5
  | .rdreg _ => 0x6
  | .wrreg _ => 0x7
  | .rstst => 0x8

/-- The REG field of an operation: its index, and 0 where the field is unused (R43). -/
def Instr.reg : Instr → BitVec 8
  | .rdreg idx => idx
  | .wrreg idx => idx
  | .nop => 0
  | .iqdec => 0
  | .fmdem => 0
  | .amdem => 0
  | .auddec => 0
  | .pipe => 0
  | .rstst => 0

/-- The one command word of an instruction: RSVD, REG and OP concatenated, RSVD 0 (R43, R44). -/
def encode (i : Instr) : Word := (0#20 ++ i.reg) ++ i.op

/-- Byte k of a word is `w[8k+7:8k]`, k = 0 first: little-endian (R33). -/
def bytesOfWord (w : Word) : List Byte :=
  [w.extractLsb' 0 8, w.extractLsb' 8 8, w.extractLsb' 16 8, w.extractLsb' 24 8]

/-- The word carried as four bytes, byte 0 first (R33). -/
def wordOfBytes (b0 b1 b2 b3 : Byte) : Word := ((b3 ++ b2) ++ b1) ++ b0

/-- Why four serialised bytes give no instruction. -/
inductive BytesRefusal where
  /-- fewer than four bytes: a partial word cannot be sent (R36) -/
  | incompleteWord
  /-- the command word is rejected with this result code (R46) -/
  | rejected (code : ResultCode)
deriving DecidableEq, Repr

/-- Decode a serialised command word, total on any bytes: the instruction and the bytes after it. -/
def decodeBytes : List Byte → Except BytesRefusal (Instr × List Byte)
  | b0 :: b1 :: b2 :: b3 :: rest =>
    match decode (wordOfBytes b0 b1 b2 b3) with
    | .ok i => .ok (i, rest)
    | .error c => .error (.rejected c)
  | _ => .error .incompleteWord

/-- The command word among the low `nbits` bits of `w`: bits 31 down to 0, as spec/opcode_table.json numbers them. -/
def tableWord (nbits w : Nat) : Word := BitVec.ofNat 32 (w % 2 ^ nbits)

/-- What the decoder reads from an instruction whose bits are `w`, bit 0 the least significant bit of the command word:
the word is laid out in bytes by R33 and decoded. -/
def decodeTableWord (nbits w : Nat) : Option Instr :=
  match decodeBytes (bytesOfWord (tableWord nbits w)) with
  | .ok (i, _) => some i
  | .error _ => none

end Sys2Proof
end

