-- ==== Sys2Proof/Machine/Flags.lean ====
section
/-! DEFINITION. STATUS: its two fields and what the completion of a command does to them (R17, R99, R104). -/

namespace Sys2Proof.Machine

/-- The 8-bit number of a result code (R99). -/
def codeByte : ResultCode → Byte
  | .ok => 0x00
  | .illegalOp => 0x01
  | .rsvdBits => 0x02
  | .badReg => 0x03
  | .badLength => 0x04
  | .badValue => 0x05

/-- LAST_CODE, bits [7:0] of STATUS (R17). -/
def lastCode (status : Word) : Byte := status.extractLsb' 0 8

/-- ERR_STICKY, bit [8] of STATUS (R17). -/
def errSticky (status : Word) : Bool := status.getLsbD 8

/-- STATUS after a command completes: LAST_CODE is its code, ERR_STICKY is set when that is not OK; no other bit is
written (R104). -/
def recordCode (code : ResultCode) (status : Word) : Word :=
  let coded := (status &&& 0xFFFFFF00#32) ||| (codeByte code).setWidth 32
  if code = .ok then coded else coded ||| 0x00000100#32

/-- ERR_STICKY set to 0 (R17). -/
def clearSticky (status : Word) : Word := status &&& 0xFFFFFEFF#32

end Sys2Proof.Machine
end

