-- ==== Sys2Proof/Machine/Float.lean ====
section
/-! DEFINITION. The binary32 primitives of 00_scope.md section 5.1 (R1 to R8). Every finite binary32 value is a whole
number of units of 2^-149, so each operation is computed exactly on natural numbers and rounded once by `roundMag`. The
results IEEE 754-2008 gives and R2 does not spell out (invalid operations, division by zero, infinities) are marked in
log 14. -/

namespace Sys2Proof.Machine

/-- `POS_ZERO`, +0 (00_scope.md section 5.1). -/
def posZero : Word := 0x00000000#32
/-- -0: the zero whose sign bit is set (R1). -/
def negZero : Word := 0x80000000#32
/-- `ONE`, 1.0. -/
def f32One : Word := 0x3F800000#32
/-- `PI_F32`, the binary32 value nearest to pi. -/
def piF32 : Word := 0x40490FDB#32
/-- `HALF_PI_F32`, the binary32 value nearest to pi/2. -/
def halfPiF32 : Word := 0x3FC90FDB#32
/-- `QNAN`, the canonical quiet NaN (R5). -/
def qnan : Word := 0x7FC00000#32
/-- The positive infinity (R1). -/
def posInf : Word := 0x7F800000#32

/-- The sign `w[31]` (R1). -/
def f32Sign (w : Word) : Bool := w.getLsbD 31
/-- The biased exponent `w[30:23]` (R1). -/
def f32Exponent (w : Word) : Nat := (w.extractLsb' 23 8).toNat
/-- The fraction `w[22:0]` (R1). -/
def f32Fraction (w : Word) : Nat := (w.extractLsb' 0 23).toNat
/-- The word without its sign, `w[30:0]`: larger for a larger magnitude (R1). -/
def f32Mag (w : Word) : Nat := (w.extractLsb' 0 31).toNat

/-- Exponent 0xFF and a non-zero fraction (R1). -/
def isNaN (w : Word) : Bool := f32Exponent w == 0xFF && f32Fraction w != 0
/-- Exponent 0xFF and fraction 0 (R1). -/
def isInf (w : Word) : Bool := f32Exponent w == 0xFF && f32Fraction w == 0
/-- Exponent 0 and fraction 0, of either sign (R1). -/
def isZero (w : Word) : Bool := f32Exponent w == 0 && f32Fraction w == 0
/-- Exponent 0 and a non-zero fraction (R1). -/
def isSubnormal (w : Word) : Bool := f32Exponent w == 0 && f32Fraction w != 0
/-- Neither an infinity nor a NaN (R1). -/
def isFinite (w : Word) : Bool := f32Exponent w != 0xFF

/-- The magnitude of a finite value in units of 2^-149: `fraction` for a subnormal, `(2^23 + fraction) * 2^(exponent-1)`
for a normal number (R1). -/
def units (w : Word) : Nat :=
  if f32Exponent w = 0 then f32Fraction w else (2 ^ 23 + f32Fraction w) * 2 ^ (f32Exponent w - 1)

/-- A finite value in units of 2^-149, with its sign. -/
def signedUnits (w : Word) : Int := if f32Sign w then -(units w : Int) else (units w : Int)

/-- The word with this sign and this magnitude `w[30:0]`. -/
def pack (sign : Bool) (mag : Nat) : Word := BitVec.ofNat 32 (mag + if sign then 2 ^ 31 else 0)

/-- The sign flipped, every other bit kept: `-f32(w)`. -/
def f32Neg (w : Word) : Word := w ^^^ 0x80000000#32

/-- Round to an integer, ties to even: the quotient `n / u` rounded once (R2). -/
def roundTiesToEven (n u : Nat) : Nat :=
  if 2 * (n % u) > u ∨ (2 * (n % u) = u ∧ (n / u) % 2 = 1) then n / u + 1 else n / u

/-- The exponent step of the binade that holds `n / d` units: neighbouring binary32 values are `2^binade` units apart
there, and 1 unit apart below `2^24` units, the subnormals among them (R1, R3: no flush to zero). -/
def binade (n d : Nat) : Nat := Nat.log2 (n / d) - 23

/-- The magnitude bits of the binary32 value nearest to `n / d` units, ties to an even fraction, overflow to infinity
(R2, R3). A significand that rounds up to 2^24 carries into the exponent field. -/
def roundMag (n d : Nat) : Nat :=
  min (binade n d * 2 ^ 23 + roundTiesToEven n (d * 2 ^ binade n d)) 0x7F800000

/-- `f32_add` (R2): a NaN operand and the sum of opposite infinities give a NaN; an exact zero sum is +0 unless both
operands are negative zeros. -/
def f32Add (a b : Word) : Word :=
  if isNaN a || isNaN b then qnan
  else if isInf a then (if isInf b && f32Sign a != f32Sign b then qnan else a)
  else if isInf b then b
  else
    let z := signedUnits a + signedUnits b
    if z = 0 then pack (f32Sign a && f32Sign b) 0
    else pack (decide (z < 0)) (roundMag z.natAbs 1)

/-- `f32_sub` (R2): the sum with the negated operand. -/
def f32Sub (a b : Word) : Word := f32Add a (f32Neg b)

/-- `f32_mul` (R2): a NaN operand and infinity times zero give a NaN; the sign is the exclusive or of the signs. -/
def f32Mul (a b : Word) : Word :=
  let sign := f32Sign a != f32Sign b
  if isNaN a || isNaN b then qnan
  else if (isInf a && isZero b) || (isZero a && isInf b) then qnan
  else if isInf a || isInf b then pack sign 0x7F800000
  else pack sign (roundMag (units a * units b) (2 ^ 149))

/-- `f32_div` (R2): a NaN operand, 0/0 and infinity over infinity give a NaN; a non-zero value over zero gives an infinity;
a finite value over infinity gives a zero. -/
def f32Div (a b : Word) : Word :=
  let sign := f32Sign a != f32Sign b
  if isNaN a || isNaN b then qnan
  else if (isInf a && isInf b) || (isZero a && isZero b) then qnan
  else if isInf a || isZero b then pack sign 0x7F800000
  else if isInf b then pack sign 0
  else pack sign (roundMag (units a * 2 ^ 149) (units b))

/-- The integer square root of `n`, right for every `n < 4^k`, one result bit per level. -/
def isqrt : Nat → Nat → Nat
  | 0, _ => 0
  | k + 1, n =>
    let r := 2 * isqrt k (n / 4)
    if (r + 1) * (r + 1) ≤ n then r + 1 else r

/-- The square root of `x` units in halves of a unit, rounded to an odd number when it is not whole: enough to round it
once more, to binary32, as if it were exact. The root of `x * 2^-149` is the root of `x * 2^149`, times `2^-149`. -/
def sqrtHalfUnits (x : Nat) : Nat :=
  let n := x * 2 ^ 149
  let r := isqrt 214 n
  if r * r = n then 2 * r else 2 * r + 1

/-- `f32_sqrt` (R2): a NaN gives a NaN, a zero gives itself (`sqrt(-0) = -0`), a negative value gives a NaN, +infinity
gives itself. -/
def f32Sqrt (a : Word) : Word :=
  if isNaN a then qnan
  else if isZero a then a
  else if f32Sign a then qnan
  else if isInf a then a
  else pack false (roundMag (sqrtHalfUnits (units a)) 2)

/-- `canon` (R5): every NaN becomes `QNAN`, every other word is kept. -/
def canon (v : Word) : Word := if isNaN v then qnan else v

/-- `f32_from_s32` (R6): the nearest binary32 value, ties to even; 0 gives +0. -/
def f32FromS32 (n : Int) : Word := pack (decide (n < 0)) (roundMag (n.natAbs * 2 ^ 149) 1)

/-- `f32_from_u16` (R7). -/
def f32FromU16 (n : Nat) : Word := f32FromS32 n

/-- `sext_32` of a 16-bit value (R8). -/
def sext32 (v : Half) : Word := v.signExtend 32

/-- `zext_32` of a 16-bit value (R8). -/
def zext32 (v : Half) : Word := v.setWidth 32

end Sys2Proof.Machine
end

