-- ==== Sys2Proof/Machine/Operands.lean ====
section
/-! DEFINITION. The payload's operand forms (30_encoding.md section 3) and the loop over a payload (R39). -/

namespace Sys2Proof.Machine

/-- Bits [15:0] of a word: a factor N, a counter CNT, or the I half of an IQ pair word. -/
def lowHalf (w : Word) : Half := w.extractLsb' 0 16

/-- Bits [31:16] of a word: the Q half of an IQ pair word, or a reserved field. -/
def highHalf (w : Word) : Half := w.extractLsb' 16 16

/-- `I = sext_32(w[15:0])` of an IQ pair word (R48). -/
def iqI (w : Word) : Word := sext32 (lowHalf w)

/-- `Q = sext_32(w[31:16])` of an IQ pair word (R48). -/
def iqQ (w : Word) : Word := sext32 (highHalf w)

/-- The IQ pair word `{Q, I}` of a pair (R34, R48). -/
def iqPair (i q : Half) : Word := q ++ i

/-- A complex sample: real part, imaginary part, two binary32 words (R49). -/
abbrev Sample := Word × Word

/-- The samples of a complex-sample payload, real part first (R49). A payload of odd length never gets here (R101). -/
def complexSamples : List Word → List Sample
  | re :: im :: rest => (re, im) :: complexSamples rest
  | _ => []

/-- The words of a list of complex samples, real part first (R50). -/
def sampleWords : List Sample → List Word
  | [] => []
  | z :: zs => z.1 :: z.2 :: sampleWords zs

/-- `for k in 0 .. n-1`: one step per input, in increasing k, the outputs appended in the same order (R39, R91). -/
def runSteps {σ ι ω : Type} (step : σ → ι → σ × List ω) : σ → List ι → σ × List ω
  | r, [] => (r, [])
  | r, x :: xs =>
    let now := step r x
    let later := runSteps step now.1 xs
    (later.1, now.2 ++ later.2)

end Sys2Proof.Machine
end

