-- ==== Sys2Proof/Config.lean ====
section
/-! DEFINITION. What the spec leaves OPEN (00_scope.md section 4, 93_implementation_defined.md section 2): free constants
without a body, so that no proof can learn their value. -/

namespace Sys2Proof

/-- `max_payload` of R30: the longest payload, in words, a command accepts; `none` is "unbounded" (OPEN, log 4). -/
opaque Config.maxPayload : Option Nat

/-- The free choice behind `atan2_f32(y, x)` of R66, arguments in that order (OPEN, log 5). Nothing reads it but
`Machine.atan2F32`, which folds it into what ATAN2-RANGE and ATAN2-SIGN allow; every function they allow is reached by
some value of this constant. -/
opaque Config.atan2Raw : Word → Word → Word

end Sys2Proof
end

