-- ==== Sys2Proof/Machine/State.lean ====
section
/-! DEFINITION. The state: the nine registers of R9, and what the model adds to carry the host's side of the interface. -/

namespace Sys2Proof.Machine

/-- Why the machine stops with a fault: never. The block has no trap (R106) and no data value is an error (R100), and an
ill-typed command is rejected with a result code, which is a next state (R103). No constructor, so nobody raises one
(log 12). -/
inductive Fault where
deriving DecidableEq, Repr

/-- Why an instruction has no meaning. -/
inductive Refusal where
  /-- An instruction this model gives no meaning yet. Raised by `exec` alone, and by no arm of it now; safe: nothing can
  be proved of a run past it. -/
  | notModelled (mnemonic : String)
deriving DecidableEq, Repr

/-- The block's answer to a command: an 8-bit result code and an output list (R27). -/
structure Answer where
  code : Byte
  out : List Word
deriving DecidableEq, Repr

/-- What the host may do (20_memory.md section 2.1): issue a command, or assert the reset input between commands
(R115). -/
inductive HostMove where
  | command (c : Command)
  | reset
deriving DecidableEq, Repr

/-- The machine. The first nine fields are the architectural state, exactly (R9); the others are the model's. -/
structure State where
  /-- IQ_N, index 0x00 (R10) -/
  iqN : Word
  /-- AUD_N, index 0x01 (R11) -/
  audN : Word
  /-- AUD_GAIN, index 0x02 (R12) -/
  audGain : Word
  /-- MODE, index 0x03 (R13) -/
  mode : Word
  /-- FM_PREV_RE, index 0x04 (R14) -/
  fmPrevRe : Word
  /-- FM_PREV_IM, index 0x05 (R14) -/
  fmPrevIm : Word
  /-- AUD_ACC, index 0x06 (R15) -/
  audAcc : Word
  /-- AUD_CNT, index 0x07 (R16) -/
  audCnt : Word
  /-- STATUS, index 0x08 (R17) -/
  status : Word
  /-- the payload `in` of the command being executed; empty once it is consumed (R27, R103; log 3) -/
  payload : List Word
  /-- the answer to the host's latest move: none after a reset, which gets no answer (R27, R31, R115; log 2) -/
  answer : Option Answer
  /-- the moves the host has still to make, first one first (R28; log 1) -/
  host : List HostMove
  /-- the OPEN parameter `max_payload`; no step changes it (R30; log 4) -/
  maxPayload : Option Nat
deriving DecidableEq, Repr

/-- The machine right after reset: the register values of R24, no answer, and a host that has made no move yet. -/
def State.reset : State where
  iqN := 0x00000001#32
  audN := 0x00000001#32
  audGain := 0x3F800000#32
  mode := 0x00000000#32
  fmPrevRe := 0x00000000#32
  fmPrevIm := 0x00000000#32
  audAcc := 0x00000000#32
  audCnt := 0x00000000#32
  status := 0x00000000#32
  payload := []
  answer := none
  host := []
  maxPayload := Config.maxPayload

end Sys2Proof.Machine
end

