-- ==== Sys2Proof/Machine/Ops.lean ====
section
/-! DEFINITION. The shared operations: register access (10_state.md), the checks of a decoded command (R101), completion
and rejection (R103, R104), and the reset input (R115). -/

namespace Sys2Proof.Machine

/-- The register an index names; `none` for 0x09 to 0xFF (R9, R19). -/
def regOf (idx : BitVec 8) : Option Reg :=
  match idx.toNat with
  | 0 => some .iqN
  | 1 => some .audN
  | 2 => some .audGain
  | 3 => some .mode
  | 4 => some .fmPrevRe
  | 5 => some .fmPrevIm
  | 6 => some .audAcc
  | 7 => some .audCnt
  | 8 => some .status
  | _ => none

/-- The stored word `x[R]`. -/
def State.stored (s : State) : Reg → Word
  | .iqN => s.iqN
  | .audN => s.audN
  | .audGain => s.audGain
  | .mode => s.mode
  | .fmPrevRe => s.fmPrevRe
  | .fmPrevIm => s.fmPrevIm
  | .audAcc => s.audAcc
  | .audCnt => s.audCnt
  | .status => s.status

/-- The bits of a register that are not reserved (R20). -/
def fieldBits : Reg → Word
  | .iqN => 0x0000FFFF#32
  | .audN => 0x0000FFFF#32
  | .audGain => 0xFFFFFFFF#32
  | .mode => 0x00000001#32
  | .fmPrevRe => 0xFFFFFFFF#32
  | .fmPrevIm => 0xFFFFFFFF#32
  | .audAcc => 0xFFFFFFFF#32
  | .audCnt => 0x0000FFFF#32
  | .status => 0x000001FF#32

/-- `read_value(R)`: the stored word with every reserved field replaced by 0 (R23). -/
def State.readValue (s : State) (r : Reg) : Word := s.stored r &&& fieldBits r

/-- `N_IQ = x[IQ_N][15:0]` (R10). -/
def State.nIq (s : State) : Half := lowHalf s.iqN
/-- `N_AUD = x[AUD_N][15:0]` (R11). -/
def State.nAud (s : State) : Half := lowHalf s.audN
/-- `CNT = x[AUD_CNT][15:0]` (R16). -/
def State.cnt (s : State) : Half := lowHalf s.audCnt
/-- Whether MODE selects FM: DEMOD, bit 0, is 0 (R13). -/
def State.fmMode (s : State) : Bool := !s.mode.getLsbD 0

/-- `legal(R, v)` of R94, which gathers R10 to R17. -/
def State.legalWrite (s : State) (r : Reg) (v : Word) : Bool :=
  match r with
  | .iqN => highHalf v == 0 && lowHalf v != 0
  | .audN => highHalf v == 0 && lowHalf v != 0
  | .audGain => true
  | .mode => v.extractLsb' 1 31 == 0
  | .fmPrevRe => true
  | .fmPrevIm => true
  | .audAcc => true
  | .audCnt => highHalf v == 0 && decide ((lowHalf v).toNat < s.nAud.toNat)
  | .status => v.extractLsb' 9 23 == 0 && v.extractLsb' 0 8 == 0

/-- The effect of a legal write (R94): AUD_N also clears the window (R11), STATUS only clears ERR_STICKY, and only when
bit 8 of the data is set (R17). -/
def State.writeReg (s : State) (r : Reg) (v : Word) : State :=
  match r with
  | .iqN => { s with iqN := v }
  | .audN => { s with audN := v, audAcc := posZero, audCnt := 0x00000000#32 }
  | .audGain => { s with audGain := v }
  | .mode => { s with mode := v }
  | .fmPrevRe => { s with fmPrevRe := v }
  | .fmPrevIm => { s with fmPrevIm := v }
  | .audAcc => { s with audAcc := v }
  | .audCnt => { s with audCnt := v }
  | .status => if v.getLsbD 8 then { s with status := clearSticky s.status } else s

/-- The register operand of an instruction names a register, or it has none (R101 item 3). -/
def regAssigned : Instr → Bool
  | .rdreg idx => (regOf idx).isSome
  | .wrreg idx => (regOf idx).isSome
  | .nop => true
  | .iqdec => true
  | .fmdem => true
  | .amdem => true
  | .auddec => true
  | .pipe => true
  | .rstst => true

/-- The payload length an operation takes, `max_payload` apart (R101 item 4). -/
def lengthTaken (i : Instr) (len : Nat) : Bool :=
  match i with
  | .nop => len == 0
  | .rdreg _ => len == 0
  | .rstst => len == 0
  | .wrreg _ => len == 1
  | .fmdem => len % 2 == 0
  | .amdem => len % 2 == 0
  | .iqdec => true
  | .auddec => true
  | .pipe => true

/-- Whether `len` words are more than `max_payload` (R30); an empty payload never is, whatever the parameter. -/
def State.tooLong (s : State) (len : Nat) : Bool :=
  len != 0 && (match s.maxPayload with | none => false | some most => decide (most < len))

/-- `WRREG` data is legal for its register; every other operation takes any data (R100, R101 item 5). -/
def State.dataLegal (s : State) : Instr → Bool
  | .wrreg idx =>
    match regOf idx, s.payload with
    | some r, [v] => s.legalWrite r v
    | _, _ => true
  | .nop => true
  | .iqdec => true
  | .fmdem => true
  | .amdem => true
  | .auddec => true
  | .pipe => true
  | .rdreg _ => true
  | .rstst => true

/-- Checks 3 to 5 of R101, in that order, on a command whose word decoded to `i`. -/
def State.check (s : State) (i : Instr) : ResultCode :=
  if regAssigned i = false then .badReg
  else if s.tooLong s.payload.length || !lengthTaken i s.payload.length then .badLength
  else if s.dataLegal i = false then .badValue
  else .ok

/-- A command completes: STATUS records its code (R104), the host gets its code and output (R27, R31), and its payload is
consumed. -/
def State.complete (s : State) (code : ResultCode) (out : List Word) : State :=
  { s with status := recordCode code s.status, answer := some ⟨codeByte code, out⟩, payload := [] }

/-- The one way a command fails: rejection changes no register but STATUS and emits nothing (R103). It is the block's
only exception-like event: nothing is saved, nothing is entered and nothing is returned from (R106, R107). -/
def State.reject (s : State) (code : ResultCode) : State := s.complete code []

/-- R102 for a decoded command: check it, then reject it or run its effect and complete it with OK. -/
def State.issue (s : State) (i : Instr) (run : State → State × List Word) :
    Host.Outcome State Fault Refusal :=
  .next (match s.check i with
    | .ok => (run s).1.complete .ok (run s).2
    | code => s.reject code)

/-- The reset input: every register takes its reset value, and the host gets no answer (R24, R115). The host's later
moves and the parameter `max_payload` are no registers and stay. -/
def State.assertReset (s : State) : State :=
  { State.reset with host := s.host, maxPayload := s.maxPayload }

/-- A command reaches the block: its payload stands ready to be read (R27). -/
def State.present (s : State) (c : Command) : State := { s with payload := c.payload }

/-- Words 1, 2, … of a bit string whose word 0 is the command word. -/
def payloadBits (w : Nat) : Nat → List Word
  | 0 => []
  | k + 1 => payloadBits w k ++ [BitVec.ofNat 32 (w / 2 ^ (32 * (k + 1)))]

/-- The payload that goes with the bits of an instruction: the words after the command word, and for `WRREG`, which takes
exactly one word, at least that one (zeros where no bits are given). -/
def fetchPayload (nbits w : Nat) : List Word :=
  let given := (nbits + 31) / 32 - 1
  payloadBits (w % 2 ^ nbits)
    (match decode (tableWord nbits w) with
      | .ok (.wrreg _) => max 1 given
      | _ => given)

end Sys2Proof.Machine
end

