-- ==== Sys2Proof/Machine/Control.lean ====
section
/-! DEFINITION. The control and register-access commands (45_control.md). -/

namespace Sys2Proof.Machine

/-- NOP (R92): nothing but completion. -/
def execNop (s : State) : Host.Outcome State Fault Refusal := s.issue .nop fun s => (s, [])

/-- RDREG (R93): one word, the register's value before this command. -/
def execRdreg (idx : BitVec 8) (s : State) : Host.Outcome State Fault Refusal :=
  s.issue (.rdreg idx) fun s =>
    match regOf idx with
    | some r => (s, [s.readValue r])
    | none => (s, [])

/-- WRREG (R94): write `in[0]`; no output. -/
def execWrreg (idx : BitVec 8) (s : State) : Host.Outcome State Fault Refusal :=
  s.issue (.wrreg idx) fun s =>
    match regOf idx, s.payload with
    | some r, v :: _ => (s.writeReg r v, [])
    | _, _ => (s, [])

/-- The four stream-context registers at their reset values (R95, R24). -/
def State.newStream (s : State) : State :=
  { s with fmPrevRe := posZero, fmPrevIm := posZero, audAcc := posZero, audCnt := 0x00000000#32 }

/-- RSTST (R95): a new stream; the configuration is unchanged. -/
def execRstst (s : State) : Host.Outcome State Fault Refusal := s.issue .rstst fun s => (s.newStream, [])

end Sys2Proof.Machine
end

