-- ==== Sys2Proof/Machine/AmDemodulator.lean ====
section
/-! DEFINITION. The AM envelope detector (42_am_demodulator.md). -/

namespace Sys2Proof.Machine

/-- `am_mag` (R74): two rounded squares, one rounded sum, one rounded square root. -/
def amMag (a b : Word) : Word := canon (f32Sqrt (f32Add (f32Mul a a) (f32Mul b b)))

/-- The magnitude of one complex sample. -/
def amSample (z : Sample) : Word := amMag z.1 z.2

/-- AMDEM (R75): one magnitude per sample, no state (R76). -/
def execAmdem (s : State) : Host.Outcome State Fault Refusal :=
  s.issue .amdem fun s => (s, (complexSamples s.payload).map amSample)

end Sys2Proof.Machine
end

