-- ==== Sys2Proof/Machine/AudioDecimator.lean ====
section
/-! DEFINITION. The windowed audio decimator (43_audio_decimator.md). -/

namespace Sys2Proof.Machine

/-- The working copies `acc` and `cnt` of AUD_ACC and AUD_CNT (R80). -/
structure Window where
  acc : Word
  cnt : Half
deriving DecidableEq, Repr

/-- The window as a command finds it (R81). -/
def State.window (s : State) : Window := ⟨s.audAcc, s.cnt⟩

/-- The window written back when a command ends (R81, R82). -/
def State.setWindow (s : State) (w : Window) : State := { s with audAcc := w.acc, audCnt := zext32 w.cnt }

/-- The scale `S = canon(gain / N)`, rounded once (R79). -/
def audScale (gain : Word) (n : Half) : Word := canon (f32Div gain (f32FromU16 n.toNat))

/-- `aud_step` (R80): accumulate first, then count; a full window is emitted times the scale and starts again. -/
def audStep (n : Half) (scale : Word) (w : Window) (v : Word) : Window × List Word :=
  let acc := canon (f32Add w.acc v)
  let cnt := w.cnt + 1
  if cnt = n then (⟨posZero, 0⟩, [canon (f32Mul acc scale)]) else (⟨acc, cnt⟩, [])

/-- AUDDEC (R81). -/
def execAuddec (s : State) : Host.Outcome State Fault Refusal :=
  s.issue .auddec fun s =>
    let done := runSteps (audStep s.nAud (audScale s.audGain s.nAud)) s.window s.payload
    (s.setWindow done.1, done.2)

end Sys2Proof.Machine
end

