-- ==== Sys2Proof/Machine/FmDemodulator.lean ====
section
/-! DEFINITION. The FM phase demodulator (41_fm_demodulator.md). -/

namespace Sys2Proof.Machine

/-- `fm_product` (R64): the product of (a, b) with the conjugate of (c, d), four rounded products and two rounded sums. -/
def fmProduct (a b c d : Word) : Sample :=
  (f32Add (f32Mul a c) (f32Mul b d), f32Sub (f32Mul b c) (f32Mul a d))

/-- `atan2_f32(y, x)` (R66), for non-NaN, non-zero `y` and `x`: the free choice `Config.atan2Raw` folded into what
ATAN2-RANGE (magnitude at most PI_F32, not a NaN) and ATAN2-SIGN (the sign of `y`, or a zero) allow, all of it and
nothing else. It depends on `y` and `x` only (ATAN2-DET). ATAN2-ACC is `Atan2Acc` in Safety.lean (log 5). -/
def atan2F32 (y x : Word) : Word :=
  let raw := Config.atan2Raw y x
  let mag := f32Mag raw % (f32Mag piF32 + 1)
  pack (if mag = 0 then f32Sign raw else f32Sign y) mag

/-- `angle` (R65): a NaN gives QNAN, the axes give their fixed points whatever the sign of the zero, and the rest is
`atan2_f32`. -/
def angle (re im : Word) : Word :=
  if isNaN re || isNaN im then qnan
  else if isZero re && isZero im then posZero
  else if isZero im then (if f32Sign re then piF32 else posZero)
  else if isZero re then (if f32Sign im then f32Neg halfPiF32 else halfPiF32)
  else atan2F32 im re

/-- The angle of a sample against the sample before it (R64, R65). -/
def fmAngle (z prev : Sample) : Word :=
  let product := fmProduct z.1 z.2 prev.1 prev.2
  angle product.1 product.2

/-- One step of the loop of R67: one angle, and the sample becomes the previous sample, bits kept. -/
def fmStep (prev z : Sample) : Sample × List Word := (z, [fmAngle z prev])

/-- FMDEM (R67, R68). -/
def execFmdem (s : State) : Host.Outcome State Fault Refusal :=
  s.issue .fmdem fun s =>
    let done := runSteps fmStep (s.fmPrevRe, s.fmPrevIm) (complexSamples s.payload)
    ({ s with fmPrevRe := done.1.1, fmPrevIm := done.1.2 }, done.2)

end Sys2Proof.Machine
end

