-- ==== Sys2Proof/Machine/IqDecimator.lean ====
section
/-! DEFINITION. The IQ boxcar decimator (40_iq_decimator.md). -/

namespace Sys2Proof.Machine

/-- The summation registers (R18), which live for one command: two 32-bit two's-complement sums and a 16-bit count. -/
structure SumRegs where
  sumI : Word
  sumQ : Word
  grpCnt : Half
deriving DecidableEq, Repr

/-- The summation registers as a command starts, and after a completed group (R18, R55). -/
def SumRegs.zero : SumRegs := ⟨0, 0, 0⟩

/-- The completed sums as one complex sample, unscaled (R55, R58, R61). -/
def sumSample (sumI sumQ : Word) : Sample := (f32FromS32 sumI.toInt, f32FromS32 sumQ.toInt)

/-- `iq_step` (R55): add one IQ pair under the factor `n`; a complete group gives one complex sample. -/
def iqStep (n : Half) (r : SumRegs) (w : Word) : SumRegs × List Sample :=
  let sumI := r.sumI + iqI w
  let sumQ := r.sumQ + iqQ w
  let grpCnt := r.grpCnt + 1
  if grpCnt = n then (SumRegs.zero, [sumSample sumI sumQ]) else (⟨sumI, sumQ, grpCnt⟩, [])

/-- The complex samples of one raw block; a trailing incomplete group is discarded (R56, R59). -/
def iqBlock (n : Half) (block : List Word) : List Sample := (runSteps (iqStep n) SumRegs.zero block).2

/-- IQDEC (R56). -/
def execIqdec (s : State) : Host.Outcome State Fault Refusal :=
  s.issue .iqdec fun s => (s, sampleWords (iqBlock s.nIq s.payload))

end Sys2Proof.Machine
end

