-- ==== Sys2Proof/Machine/Pipeline.lean ====
section
/-! DEFINITION. The four-stage chain (44_pipeline.md), as the one interleaved loop of R88. -/

namespace Sys2Proof.Machine

/-- What the loop of R88 carries from one payload word to the next. -/
structure PipeRegs where
  sums : SumRegs
  prev : Sample
  window : Window
deriving DecidableEq, Repr

/-- What a `PIPE` command reads once, when it starts (R29, R79, R88). -/
structure PipeConfig where
  nIq : Half
  fm : Bool
  nAud : Half
  scale : Word
deriving DecidableEq, Repr

/-- The configuration a `PIPE` command starts with. -/
def State.pipeConfig (s : State) : PipeConfig := ⟨s.nIq, s.fmMode, s.nAud, audScale s.audGain s.nAud⟩

/-- The carried registers a `PIPE` command starts with. -/
def State.pipeRegs (s : State) : PipeRegs := ⟨SumRegs.zero, (s.fmPrevRe, s.fmPrevIm), s.window⟩

/-- A completed complex sample goes through the selected demodulator and the window step (R88): the angle against the
previous sample in FM mode, the magnitude in AM mode, where the previous sample is neither read nor written. -/
def pipeSample (c : PipeConfig) (r : PipeRegs) (z : Sample) : PipeRegs × List Word :=
  let v := if c.fm then fmAngle z r.prev else amMag z.1 z.2
  let audio := audStep c.nAud c.scale r.window v
  ({ r with prev := if c.fm then z else r.prev, window := audio.1 }, audio.2)

/-- One payload word through the chain (R88): most words only add to the summation registers. -/
def pipeStep (c : PipeConfig) (r : PipeRegs) (w : Word) : PipeRegs × List Word :=
  match iqStep c.nIq r.sums w with
  | (sums, z :: _) => pipeSample c { r with sums := sums } z
  | (sums, []) => ({ r with sums := sums }, [])

/-- What a `PIPE` command writes back: FM_PREV in FM mode only, and the window (R88, R90). -/
def State.writePipe (s : State) (c : PipeConfig) (r : PipeRegs) : State :=
  let t := s.setWindow r.window
  if c.fm then { t with fmPrevRe := r.prev.1, fmPrevIm := r.prev.2 } else t

/-- PIPE (R88). -/
def execPipe (s : State) : Host.Outcome State Fault Refusal :=
  s.issue .pipe fun s =>
    let done := runSteps (pipeStep s.pipeConfig) s.pipeRegs s.payload
    (s.writePipe s.pipeConfig done.1, done.2)

end Sys2Proof.Machine
end

