-- ==== Sys2Proof/Machine/Dispatch.lean ====
section
/-! DEFINITION. The meaning of each instruction, one arm per constructor. -/

namespace Sys2Proof.Machine

/-- What one decoded command does, its payload standing in `s.payload` (R102). -/
def exec (i : Instr) (s : State) : Host.Outcome State Fault Refusal :=
  match i with
  | .nop => Sys2Proof.Machine.execNop s
  | .iqdec => Sys2Proof.Machine.execIqdec s
  | .fmdem => Sys2Proof.Machine.execFmdem s
  | .amdem => Sys2Proof.Machine.execAmdem s
  | .auddec => Sys2Proof.Machine.execAuddec s
  | .pipe => Sys2Proof.Machine.execPipe s
  | .rdreg idx => Sys2Proof.Machine.execRdreg idx s
  | .wrreg idx => Sys2Proof.Machine.execWrreg idx s
  | .rstst => Sys2Proof.Machine.execRstst s

end Sys2Proof.Machine
end

