-- ==== Sys2Proof/Machine/Step.lean ====
section
/-! DEFINITION. One step of the machine: the host's next move. -/

namespace Sys2Proof.Machine

/-- One step: the host's next move is made. A command is decoded and executed, or rejected by its word (R46, R102); a reset
sets every register (R115); with no move to make the block is idle and nothing changes (R114). -/
def step (s : State) : Host.Outcome State Fault Refusal :=
  match s.host with
  | [] => .next s
  | .reset :: rest => .next { s with host := rest }.assertReset
  | .command c :: rest =>
    match decode c.word with
    | .ok i => exec i ({ s with host := rest }.present c)
    | .error code => .next (({ s with host := rest }.present c).reject code)

/-- `s` with the instruction of these bits as the host's next move. The block fetches nothing (R41): what it executes next
is what the host issues next (log 1, log 15). -/
def State.withFetchWord (s : State) (nbits w : Nat) : State :=
  { s with host := .command ⟨tableWord nbits w, fetchPayload nbits w⟩ :: s.host }

end Sys2Proof.Machine
end

