-- ==== Sys2Proof/Machine/Assembler.lean ====
section
/-! DEFINITION. The assembler's notation (30_encoding.md section 5): the host's way to write commands down. No step calls
it. What R53 does not say of the text is in log 16. -/

namespace Sys2Proof.Machine

/-- The index of a register (R9). -/
def regIndex : Reg → BitVec 8
  | .iqN => 0x00
  | .audN => 0x01
  | .audGain => 0x02
  | .mode => 0x03
  | .fmPrevRe => 0x04
  | .fmPrevIm => 0x05
  | .audAcc => 0x06
  | .audCnt => 0x07
  | .status => 0x08

/-- `RDREG R` as a command (R93). -/
def cmdRead (r : Reg) : Command := ⟨encode (.rdreg (regIndex r)), []⟩

/-- `WRREG R, v` as a command (R94). -/
def cmdWrite (r : Reg) (v : Word) : Command := ⟨encode (.wrreg (regIndex r)), [v]⟩

/-- The pseudo-instructions of R54. -/
inductive Pseudo where
  | setfm
  | setam
  | clrerr
  | config (niq naud gain mode : Word)
  | savectx
  | restorectx (re im acc cnt : Word)
  | newstream
deriving DecidableEq, Repr

/-- The expansion of a pseudo-instruction, command by command (R54). -/
def Pseudo.expand : Pseudo → List Command
  | .setfm => [cmdWrite .mode 0x00000000]
  | .setam => [cmdWrite .mode 0x00000001]
  | .clrerr => [cmdWrite .status 0x00000100]
  | .config niq naud gain mode =>
    [cmdWrite .iqN niq, cmdWrite .audN naud, cmdWrite .audGain gain, cmdWrite .mode mode]
  | .savectx => [cmdRead .fmPrevRe, cmdRead .fmPrevIm, cmdRead .audAcc, cmdRead .audCnt]
  | .restorectx re im acc cnt =>
    [cmdWrite .fmPrevRe re, cmdWrite .fmPrevIm im, cmdWrite .audAcc acc, cmdWrite .audCnt cnt]
  | .newstream => [⟨encode .rstst, []⟩]

/-- `iq(I, Q)`: the word `{Q[15:0], I[15:0]}` (R48, R53). -/
def asmIq (i q : Int) : Word := iqPair (BitVec.ofInt 16 i) (BitVec.ofInt 16 q)

/-- `f(x)`: the binary32 encoding of the decimal `±digits · 10^ten`, nearest, ties to even (R53). -/
def asmFloat (neg : Bool) (digits : Nat) (ten : Int) : Word :=
  match ten with
  | .ofNat p => pack neg (roundMag (digits * 10 ^ p * 2 ^ 149) 1)
  | .negSucc p => pack neg (roundMag (digits * 2 ^ 149) (10 ^ (p + 1)))

/-- A token of an assembler line. -/
inductive Token where
  | word (cs : List Char)
  | comma
  | lpar
  | rpar
  | lbrk
  | rbrk
deriving DecidableEq, Repr

/-- The character is a separator of its own. -/
def punctuation (c : Char) : Option Token :=
  if c = ',' then some .comma
  else if c = '(' then some .lpar
  else if c = ')' then some .rpar
  else if c = '[' then some .lbrk
  else if c = ']' then some .rbrk
  else none

/-- The pending word as a token, if there is one; `cur` holds it backwards. -/
def endWord (cur : List Char) : List Token := if cur = [] then [] else [.word cur.reverse]

/-- The tokens of a line; `;` starts a comment (R53). `cur` is the word being read, backwards. -/
def tokens : List Char → List Char → List Token
  | [], cur => endWord cur
  | c :: cs, cur =>
    if c = ';' then endWord cur
    else if c = ' ' ∨ c = '\t' then endWord cur ++ tokens cs []
    else match punctuation c with
      | some t => endWord cur ++ t :: tokens cs []
      | none => tokens cs (c :: cur)

/-- The place of a character among a notation's digits, lowest first: the value it stands for. -/
def placeIn (digits : String) (c : Char) : Option Nat := digits.toList.findIdx? (· == c)

/-- The value of a decimal digit. -/
def digitValue (c : Char) : Option Nat := placeIn "0123456789" c

/-- The value of a hexadecimal digit, in capitals as the spec writes words, or in small letters (log 16). -/
def hexValue (c : Char) : Option Nat := (placeIn "0123456789ABCDEF" c).or (placeIn "0123456789abcdef" c)

/-- A run of digits in a base, continued from `acc`; nothing else may stand in it. -/
def readDigits (value : Char → Option Nat) (base : Nat) : List Char → Nat → Option Nat
  | [], acc => some acc
  | c :: cs, acc => (value c).bind fun d => readDigits value base cs (acc * base + d)

/-- A non-empty run of digits. -/
def readNat (value : Char → Option Nat) (base : Nat) (cs : List Char) : Option Nat :=
  if cs = [] then none else readDigits value base cs 0

/-- A decimal integer with an optional sign. -/
def readInt : List Char → Option Int
  | '-' :: cs => (readNat digitValue 10 cs).map fun n => -(n : Int)
  | '+' :: cs => (readNat digitValue 10 cs).map fun n => (n : Int)
  | cs => (readNat digitValue 10 cs).map fun n => (n : Int)

/-- The mantissa of an unsigned decimal: its digits read as a whole number, and minus how many stand after the point. -/
def readMantissa (cs : List Char) : Option (Nat × Int) :=
  let whole := cs.takeWhile (· ≠ '.')
  match cs.drop whole.length with
  | [] => (readNat digitValue 10 whole).map fun n => (n, 0)
  | _ :: frac => (readNat digitValue 10 (whole ++ frac)).map fun n => (n, -(frac.length : Int))

/-- An unsigned decimal, with an optional power of ten after `e` or `E`. -/
def readDecimal (neg : Bool) (cs : List Char) : Option Word :=
  let mant := cs.takeWhile fun c => decide (c ≠ 'e' ∧ c ≠ 'E')
  (readMantissa mant).bind fun m =>
    match cs.drop mant.length with
    | [] => some (asmFloat neg m.1 m.2)
    | _ :: ten => (readInt ten).map fun t => asmFloat neg m.1 (m.2 + t)

/-- The operand of `f(x)`: a decimal with an optional sign. -/
def readFloat : List Char → Option Word
  | '-' :: cs => readDecimal true cs
  | '+' :: cs => readDecimal false cs
  | cs => readDecimal false cs

/-- A data word at the head of the tokens (R53): `0x` and eight hexadecimal digits, `iq(I, Q)` with both in the 16-bit
signed range, or `f(x)`; with the tokens after it. -/
def readData : List Token → Option (Word × List Token)
  | .word ['i', 'q'] :: .lpar :: .word i :: .comma :: .word q :: .rpar :: rest =>
    (readInt i).bind fun i => (readInt q).bind fun q =>
      if -32768 ≤ i ∧ i ≤ 32767 ∧ -32768 ≤ q ∧ q ≤ 32767 then some (asmIq i q, rest) else none
  | .word ['f'] :: .lpar :: .word x :: .rpar :: rest => (readFloat x).map fun w => (w, rest)
  | .word ('0' :: 'x' :: cs) :: rest =>
    if cs.length = 8 then (readNat hexValue 16 cs).map fun n => (BitVec.ofNat 32 n, rest) else none
  | _ => none

/-- Data words separated by commas, at least one, with the tokens after them; the first argument bounds their number. -/
def readList : Nat → List Token → Option (List Word × List Token)
  | 0, _ => none
  | fuel + 1, ts =>
    (readData ts).bind fun d =>
      match d.2 with
      | .comma :: rest => (readList fuel rest).map fun l => (d.1 :: l.1, l.2)
      | rest => some ([d.1], rest)

/-- Data words that make up the rest of the line. -/
def readWords (ts : List Token) : Option (List Word) :=
  (readList ts.length ts).bind fun l => if l.2 = [] then some l.1 else none

/-- The payload of a data command: words in square brackets; an omitted payload is the empty payload (R53). -/
def readPayload : List Token → Option (List Word)
  | [] => some []
  | [.lbrk, .rbrk] => some []
  | .lbrk :: ts => (readList ts.length ts).bind fun l => if l.2 = [.rbrk] then some l.1 else none
  | _ => none

/-- The names of the registers (10_state.md section 2). -/
def regNames : List (String × Reg) :=
  [("IQ_N", .iqN), ("AUD_N", .audN), ("AUD_GAIN", .audGain), ("MODE", .mode), ("FM_PREV_RE", .fmPrevRe),
   ("FM_PREV_IM", .fmPrevIm), ("AUD_ACC", .audAcc), ("AUD_CNT", .audCnt), ("STATUS", .status)]

/-- A register operand: a register name, or `#` followed by an index, decimal or `0x` hexadecimal (R53). -/
def readReg : List Char → Option (BitVec 8)
  | '#' :: '0' :: 'x' :: cs => (readNat hexValue 16 cs).bind fun n => if n < 256 then some (BitVec.ofNat 8 n) else none
  | '#' :: cs => (readNat digitValue 10 cs).bind fun n => if n < 256 then some (BitVec.ofNat 8 n) else none
  | cs => (regNames.find? fun p => p.1.toList = cs).map fun p => regIndex p.2

/-- The mnemonics of the data commands, which take a payload in brackets (R53). -/
def dataMnemonics : List (String × Instr) :=
  [("IQDEC", .iqdec), ("FMDEM", .fmdem), ("AMDEM", .amdem), ("AUDDEC", .auddec), ("PIPE", .pipe)]

/-- The mnemonics without operands, with their expansions (R53, R54). -/
def plainMnemonics : List (String × List Command) :=
  [("NOP", [⟨encode .nop, []⟩]), ("RSTST", [⟨encode .rstst, []⟩]), ("SETFM", Pseudo.setfm.expand),
   ("SETAM", Pseudo.setam.expand), ("CLRERR", Pseudo.clrerr.expand), ("SAVECTX", Pseudo.savectx.expand),
   ("NEWSTREAM", Pseudo.newstream.expand)]

/-- The commands of one line's tokens; a line without tokens has none. -/
def assembleTokens : List Token → Option (List Command)
  | [] => some []
  | .word m :: ts =>
    match plainMnemonics.find? fun p => p.1.toList = m with
    | some p => if ts = [] then some p.2 else none
    | none =>
      match dataMnemonics.find? fun p => p.1.toList = m with
      | some p => (readPayload ts).map fun payload => [⟨encode p.2, payload⟩]
      | none =>
        if m = "RDREG".toList then
          match ts with
          | [.word r] => (readReg r).map fun idx => [⟨encode (.rdreg idx), []⟩]
          | _ => none
        else if m = "WRREG".toList then
          match ts with
          | .word r :: .comma :: rest =>
            (readReg r).bind fun idx => (readWords rest).bind fun ws =>
              match ws with
              | [v] => some [⟨encode (.wrreg idx), [v]⟩]
              | _ => none
          | _ => none
        else if m = "CONFIG".toList then
          (readWords ts).bind fun ws =>
            match ws with
            | [niq, naud, gain, mode] => some (Pseudo.config niq naud gain mode).expand
            | _ => none
        else if m = "RESTORECTX".toList then
          (readWords ts).bind fun ws =>
            match ws with
            | [re, im, acc, cnt] => some (Pseudo.restorectx re im acc cnt).expand
            | _ => none
        else none
  | _ => none

/-- One line of assembler text as the commands it stands for (R53, R54); `none` where the line is not in the syntax. -/
def assembleLine (line : String) : Option (List Command) := assembleTokens (tokens line.toList [])

end Sys2Proof.Machine
end

