-- ==== Sys2Proof/Machine/Stream.lean ====
section
/-! DEFINITION. The host's side of the data streams (20_memory.md sections 2.1 and 3): how raw samples become payload words
and output words become bytes. The block never sees bytes (R33), so no step calls these. -/

namespace Sys2Proof.Machine

/-- The two bytes of a raw 16-bit sample, little-endian (R34). -/
def bytesOfHalf (h : Half) : List Byte := [h.extractLsb' 0 8, h.extractLsb' 8 8]

/-- The serialised raw sequence of 16-bit samples I0, Q0, I1, Q1, … (R34). -/
def bytesOfHalves : List Half → List Byte
  | [] => []
  | h :: hs => bytesOfHalf h ++ bytesOfHalves hs

/-- The host packs each (I, Q) pair into one payload word and drops an unpaired trailing I (R34). -/
def packRaw : List Half → List Word
  | i :: q :: rest => iqPair i q :: packRaw rest
  | _ => []

/-- A list of words serialised, each little-endian (R33, R35). -/
def bytesOfWords : List Word → List Byte
  | [] => []
  | w :: ws => bytesOfWord w ++ bytesOfWords ws

/-- The words a byte sequence carries, four bytes each; an incomplete last word is no word (R33, R36). -/
def wordsOfBytes : List Byte → List Word
  | b0 :: b1 :: b2 :: b3 :: rest => wordOfBytes b0 b1 b2 b3 :: wordsOfBytes rest
  | _ => []

end Sys2Proof.Machine
end

