-- ==== Sys2Proof/Safety.lean ====
section
/-! DEFINITION. The terms that claims use: the values binary32 words stand for, what correct rounding is, the accuracy
property of the angle function, and the states a run can be in. -/

namespace Sys2Proof.Machine

/-- The value of a finite word: its signed units of 2^-149 (R1). -/
def f32Value (w : Word) : ℚ := (signedUnits w : ℚ) / 2 ^ 149

/-- The magnitude from which roundTiesToEven overflows to infinity: half a unit in the last place above the largest
finite value. -/
def overflowBound : ℚ := 2 ^ 128 - 2 ^ 103

/-- `w` is the real number `x` rounded once to binary32 with roundTiesToEven (R2, R3): from the overflow bound on, the
infinity of the sign of `x`; below it a nearest finite value, with an even fraction where another finite value is as
near. It says nothing of the sign of a zero. -/
def RoundsTo (x : ℝ) (w : Word) : Prop :=
  if (overflowBound : ℝ) ≤ |x| then isInf w = true ∧ (f32Sign w = true ↔ x < 0)
  else isFinite w = true ∧
    ∀ v : Word, isFinite v = true →
      |(f32Value w : ℝ) - x| ≤ |(f32Value v : ℝ) - x| ∧
      (|(f32Value w : ℝ) - x| = |(f32Value v : ℝ) - x| → f32Value v ≠ f32Value w → f32Fraction w % 2 = 0)

/-- The distance from `|r|` to the next larger binary32 magnitude (R66, ATAN2-ACC): `2^(e-150)` for a normal number of
biased exponent `e`, and `2^-149` for a subnormal or a zero. -/
def f32Ulp (r : Word) : ℚ := 2 ^ (max (f32Exponent r) 1) / 2 ^ 150

/-- ATAN2-ACC of R66 with `atan2_err_ulp = err`, the real principal-value angle in (-pi, pi] being `Complex.arg`: a
premise that a claim about accuracy takes (log 5). -/
def Atan2Acc (err : ℝ) : Prop :=
  ∀ y x : Word, isFinite y = true → isFinite x = true → isZero y = false → isZero x = false →
    |(f32Value (atan2F32 y x) : ℝ) - Complex.arg ⟨f32Value x, f32Value y⟩| ≤ err * f32Ulp (atan2F32 y x)

/-- Every register holds a legal value (R10, R11, R13, R16, R17, R20): reserved fields 0, factors not 0, the counter below
the audio factor, a result code that exists. -/
abbrev State.Legal (s : State) : Prop :=
  highHalf s.iqN = 0 ∧ lowHalf s.iqN ≠ 0 ∧
  highHalf s.audN = 0 ∧ lowHalf s.audN ≠ 0 ∧
  s.mode.extractLsb' 1 31 = 0 ∧
  highHalf s.audCnt = 0 ∧ s.cnt.toNat < s.nAud.toNat ∧
  s.status.extractLsb' 9 23 = 0 ∧ (lastCode s.status).toNat ≤ 5

/-- A payload of `len` words is within `max_payload` (R30). -/
abbrev State.fits (s : State) (len : Nat) : Prop := s.tooLong len = false

/-- The four stream-context registers (the glossary's "stream context"). -/
def State.context (s : State) : Word × Word × Word × Word := (s.fmPrevRe, s.fmPrevIm, s.audAcc, s.audCnt)

/-- The four configuration registers (10_state.md section 2.1). -/
def State.configuration (s : State) : Word × Word × Word × Word := (s.iqN, s.audN, s.audGain, s.mode)

/-- A safe step goes on: neither a fault nor a refusal. -/
def goesOn (o : Host.Outcome State Fault Refusal) : Bool :=
  match o with
  | .next _ => true
  | .fault _ => false
  | .refused _ => false

/-! The spec's own sentences in plain numbers, for claims to compare the machine with. No step calls them. -/

/-- `legal(idx, v)` of R94 on numbers; `nAud` is the audio factor before the write. -/
def legalNumber (nAud idx v : Nat) : Bool :=
  if idx = 0 ∨ idx = 1 then decide (0 < v ∧ v < 65536)
  else if idx = 3 then decide (v < 2)
  else if idx = 7 then decide (v < nAud)
  else if idx = 8 then decide (v = 0 ∨ v = 256)
  else true

/-- `check(cmd, in)` of R101 on numbers, item by item. -/
def specCheck (s : State) (c : Command) : ResultCode :=
  let op := c.word.toNat % 16
  let idx := c.word.toNat / 16 % 256
  let len := c.payload.length
  if 9 ≤ op then .illegalOp
  else if c.word.toNat / 4096 ≠ 0 ∨ (op ≠ 6 ∧ op ≠ 7 ∧ idx ≠ 0) then .rsvdBits
  else if (op = 6 ∨ op = 7) ∧ 8 < idx then .badReg
  else if s.maxPayload.any (fun most => decide (most < len)) = true then .badLength
  else if (op = 0 ∨ op = 6 ∨ op = 8) ∧ len ≠ 0 then .badLength
  else if op = 7 ∧ len ≠ 1 then .badLength
  else if (op = 2 ∨ op = 3) ∧ len % 2 = 1 then .badLength
  else if op = 7 ∧ legalNumber (s.audN.toNat % 65536) idx (c.payload.headD 0).toNat = false then .badValue
  else .ok

/-- The exact sum of one half (I or Q) over group `j` of `n` pairs: the sum over `k = jn .. jn+n-1` of R56. -/
def groupSum (half : Word → Half) (n j : Nat) (block : List Word) : Int :=
  (((block.drop (j * n)).take n).map fun w => (half w).toInt).sum

/-- Sample `k` of a complex-sample payload: `(in[2k], in[2k+1])` (R49). -/
def sampleAt (payload : List Word) (k : Nat) : Sample := (payload.getD (2 * k) 0, payload.getD (2 * k + 1) 0)

/-- The sample before sample `k`: for `k = 0` the one FM_PREV holds (R67). -/
def sampleBefore (s : State) (payload : List Word) (k : Nat) : Sample :=
  if k = 0 then (s.fmPrevRe, s.fmPrevIm) else sampleAt payload (k - 1)

/-- A window's running sum: sequential in sample order, one rounding per addition (R80). -/
def windowSum (acc : Word) (samples : List Word) : Word := samples.foldl (fun a v => canon (f32Add a v)) acc

/-- What the sum of window `j` of a command starts from: the carried AUD_ACC for the first, +0 for each later one (R80,
R83). -/
def windowStart (s : State) (j : Nat) : Word := if j = 0 then s.audAcc else posZero

/-- Where window `j` begins in the payload, when `cnt` samples of window 0 came before it (R83). -/
def windowOffset (n cnt j : Nat) : Nat := j * n - cnt

/-- The samples of the payload that fall in window `j` (R80, R83). -/
def windowSamples (n cnt j : Nat) (payload : List Word) : List Word :=
  (payload.drop (windowOffset n cnt j)).take (windowOffset n cnt (j + 1) - windowOffset n cnt j)

/-- The demodulator that MODE selects for `PIPE`: DEMOD 0 is FM, 1 is AM (R13, R89). -/
def demodulator (s : State) : Instr := if s.mode.getLsbD 0 then .amdem else .fmdem

/-- The host's next moves are these commands, in order. -/
def issues (cs : List Command) (rest : List HostMove) : List HostMove := cs.map .command ++ rest

/-- Every word is a finite binary32 value of magnitude at most 2^31, as `IQDEC`'s outputs are (R73). -/
def inIqRange (w : Word) : Prop := isFinite w = true ∧ |f32Value w| ≤ 2 ^ 31

end Sys2Proof.Machine
end

