-- ==== Sys2Proof/Certificates/Slice0/Obligations.lean ====
section
/-! DEFINITION. The statements for the provers. Each says what the spec's rules say an operation, a command or the machine
does; OBLIGATIONS.json lists them. -/

open Sys2Proof Sys2Proof.Machine

/-! ### The command word -/

/-- R46: decoding is total and sorts every word into an operation, ILLEGAL_OP or RSVD_BITS, in the order of its
pseudocode. The fields are taken out by arithmetic on the word's number. -/
def Obligations.DecodeClassifiesEveryWord : Prop :=
  ∀ cmd : Word,
    let op := cmd.toNat % 16
    let reg := cmd.toNat / 16 % 256
    let rsvd := cmd.toNat / 4096
    if 9 ≤ op then decode cmd = .error .illegalOp
    else if rsvd ≠ 0 then decode cmd = .error .rsvdBits
    else if op ≠ 6 ∧ op ≠ 7 ∧ reg ≠ 0 then decode cmd = .error .rsvdBits
    else ∃ i, decode cmd = .ok i ∧
      [Instr.nop, .iqdec, .fmdem, .amdem, .auddec, .pipe, .rdreg (BitVec.ofNat 8 reg), .wrreg (BitVec.ofNat 8 reg),
        .rstst][op]? = some i

/-- Decode and encode agree: every instruction, with every value of its register operand, is read back from its own word
(R43, R45). -/
def Obligations.DecodeOfEncodeIsTheInstruction : Prop :=
  ∀ i : Instr, decode (encode i) = .ok i

/-- Each operation has exactly one encoding: a word that decodes to an instruction is that instruction's word. -/
def Obligations.EncodeOfDecodeIsTheWord : Prop :=
  ∀ (cmd : Word) (i : Instr), decode cmd = .ok i → encode i = cmd

/-- Words written out from the tables of 30_encoding.md section 2 decode to what they stand for. -/
def Obligations.WrittenWordsDecode : Prop :=
  decode 0x00000000 = .ok .nop ∧ decode 0x00000001 = .ok .iqdec ∧ decode 0x00000002 = .ok .fmdem ∧
  decode 0x00000003 = .ok .amdem ∧ decode 0x00000004 = .ok .auddec ∧ decode 0x00000005 = .ok .pipe ∧
  decode 0x00000086 = .ok (.rdreg 0x08) ∧ decode 0x00000077 = .ok (.wrreg 0x07) ∧ decode 0x00000008 = .ok .rstst

/-! ### The step -/

/-- A step runs the decoded command: when the host's next move is a command whose word decodes to `i`, the step is `exec i`
on the state with that move taken and its payload presented (R102; the queue of moves is the model's, log 1). -/
def Obligations.StepRunsTheDecodedCommand : Prop :=
  ∀ (s : State) (c : Command) (rest : List HostMove) (i : Instr),
    s.host = .command c :: rest → decode c.word = .ok i →
    step s = exec i { s with host := rest, payload := c.payload }

/-- R51: a word whose OP is 0x9 to 0xF is rejected with ILLEGAL_OP, whatever its other bits and its payload. -/
def Obligations.IllegalOpIsRejected : Prop :=
  ∀ (s : State) (c : Command) (rest : List HostMove),
    s.host = .command c :: rest → 9 ≤ c.word.toNat % 16 →
    step s = .next { s with
      host := rest, payload := [], answer := some ⟨0x01, []⟩, status := recordCode .illegalOp s.status }

/-- R52: a legal OP with a 1 in RSVD, or with a REG field it does not use, is rejected with RSVD_BITS. -/
def Obligations.ReservedBitsAreRejected : Prop :=
  ∀ (s : State) (c : Command) (rest : List HostMove),
    s.host = .command c :: rest → c.word.toNat % 16 < 9 →
    (c.word.toNat / 4096 ≠ 0 ∨
      (c.word.toNat % 16 ≠ 6 ∧ c.word.toNat % 16 ≠ 7 ∧ c.word.toNat / 16 % 256 ≠ 0)) →
    step s = .next { s with
      host := rest, payload := [], answer := some ⟨0x02, []⟩, status := recordCode .rsvdBits s.status }

/-- R101: every command is answered with the code of the first check that fails, and with OK if none does. -/
def Obligations.AnswerIsTheFirstFailingCheck : Prop :=
  ∀ (s : State) (c : Command) (rest : List HostMove),
    s.host = .command c :: rest →
    ∃ t out, step s = .next t ∧ t.answer = some ⟨codeByte (specCheck s c), out⟩

/-- R103: a rejected command changes no register other than STATUS, emits nothing, consumes its payload, and the block
goes on with the host's next move. -/
def Obligations.RejectionIsPrecise : Prop :=
  ∀ (s t : State) (c : Command) (rest : List HostMove) (a : Answer),
    s.host = .command c :: rest → step s = .next t → t.answer = some a → a.code ≠ 0 →
    a.out = [] ∧
    t = { s with host := rest, payload := [], answer := some ⟨a.code, []⟩, status := t.status }

/-- R104, and R17 for the cases in which ERR_STICKY is kept: when any command completes, LAST_CODE is its code, and
ERR_STICKY is set if that is not OK, cleared by an accepted `WRREG STATUS` with bit 8 set, and kept otherwise. In a state
whose reserved bits are 0 that `WRREG` leaves STATUS 0. That completion keeps bits [31:9] even where they are not 0, which
no run reaches, is the model's choice (log 13). -/
def Obligations.CompletionRecordsTheCode : Prop :=
  ∀ (s t : State) (c : Command) (rest : List HostMove) (a : Answer),
    s.host = .command c :: rest → step s = .next t → t.answer = some a →
    let clears := c.word = 0x00000087#32 ∧ (∃ v, c.payload = [v] ∧ v.getLsbD 8 = true) ∧ a.code = 0
    lastCode t.status = a.code ∧
    (errSticky t.status = true ↔ a.code ≠ 0 ∨ (errSticky s.status = true ∧ ¬ clears)) ∧
    t.status.extractLsb' 9 23 = s.status.extractLsb' 9 23 ∧
    (clears → s.status.extractLsb' 9 23 = 0 → t.status = 0)

/-- R114: with no move of the host to make, nothing changes. -/
def Obligations.IdleBlockChangesNothing : Prop :=
  ∀ s : State, s.host = [] → step s = .next s

/-- R107: after any move the block is ready for the next one: no state faults and none is refused. -/
def Obligations.EveryStepGoesOn : Prop :=
  ∀ s : State, ∃ t, step s = .next t

/-- One step takes one move of the host and never touches `max_payload`. Both are the model's own fields (log 1, log 4). -/
def Obligations.StepTakesOneMove : Prop :=
  ∀ s t : State, step s = .next t → t.host = s.host.tail ∧ t.maxPayload = s.maxPayload

/-! ### Reset and the invariant -/

/-- R115: asserting the reset input sets every register to its reset value, whatever it held. -/
def Obligations.ResetMoveSetsEveryRegister : Prop :=
  ∀ (s : State) (rest : List HostMove), s.host = .reset :: rest →
    ∃ t, step s = .next t ∧
      t.iqN = 0x00000001 ∧ t.audN = 0x00000001 ∧ t.audGain = 0x3F800000 ∧ t.mode = 0x00000000 ∧
      t.fmPrevRe = 0x00000000 ∧ t.fmPrevIm = 0x00000000 ∧ t.audAcc = 0x00000000 ∧ t.audCnt = 0x00000000 ∧
      t.status = 0x00000000 ∧ t.host = rest

/-- R24: the registers of the machine right after reset. -/
def Obligations.ResetStateHoldsTheResetValues : Prop :=
  State.reset.iqN = 0x00000001 ∧ State.reset.audN = 0x00000001 ∧ State.reset.audGain = 0x3F800000 ∧
  State.reset.mode = 0x00000000 ∧ State.reset.fmPrevRe = 0x00000000 ∧ State.reset.fmPrevIm = 0x00000000 ∧
  State.reset.audAcc = 0x00000000 ∧ State.reset.audCnt = 0x00000000 ∧ State.reset.status = 0x00000000

/-- R117: after reset every register holds a legal value. -/
def Obligations.ResetStateIsLegal : Prop := State.reset.Legal

/-- The register invariants (R10, R11, R13, R16, R17, R20): every step from a state with legal registers leaves them legal:
reserved fields 0, factors not 0, the window counter below the audio factor, MODE 0 or 1, an existing result code. -/
def Obligations.EveryStepKeepsRegistersLegal : Prop :=
  ∀ s t : State, s.Legal → step s = .next t → t.Legal

/-! ### Control and register access -/

/-- R92: `NOP` does nothing but complete; with a payload it is rejected with BAD_LENGTH. -/
def Obligations.NopOnlyCompletes : Prop :=
  ∀ s : State,
    (s.payload = [] → exec .nop s = .next (s.complete .ok [])) ∧
    (s.payload ≠ [] → exec .nop s = .next (s.reject .badLength))

/-- R23: `RDREG` of an assigned index answers the register's value before the command, reserved fields 0, and changes no
register (its completion apart). -/
def Obligations.RdregAnswersTheRegister : Prop :=
  ∀ (s : State) (idx : BitVec 8), idx.toNat ≤ 8 → s.payload = [] →
    exec (.rdreg idx) s = .next (s.complete .ok
      [BitVec.ofNat 32 ([s.iqN.toNat % 65536, s.audN.toNat % 65536, s.audGain.toNat, s.mode.toNat % 2, s.fmPrevRe.toNat,
        s.fmPrevIm.toNat, s.audAcc.toNat, s.audCnt.toNat % 65536, s.status.toNat % 512].getD idx.toNat 0)])

/-- R93: an unassigned index is rejected with BAD_REG before the payload is looked at, a payload with BAD_LENGTH. -/
def Obligations.RdregRejects : Prop :=
  ∀ (s : State) (idx : BitVec 8),
    (8 < idx.toNat → exec (.rdreg idx) s = .next (s.reject .badReg)) ∧
    (idx.toNat ≤ 8 → s.payload ≠ [] → exec (.rdreg idx) s = .next (s.reject .badLength))

/-- R10, R12, R13: a legal write to IQ_N, AUD_GAIN or MODE stores the word and changes nothing else. -/
def Obligations.WrregStoresConfiguration : Prop :=
  ∀ (s : State) (v : Word), s.payload = [v] → s.fits 1 →
    (0 < v.toNat ∧ v.toNat < 65536 → exec (.wrreg 0x00) s = .next ({ s with iqN := v }.complete .ok [])) ∧
    exec (.wrreg 0x02) s = .next ({ s with audGain := v }.complete .ok []) ∧
    (v.toNat < 2 → exec (.wrreg 0x03) s = .next ({ s with mode := v }.complete .ok []))

/-- R11: a legal write to AUD_N also clears AUD_ACC and AUD_CNT, even when the value is the old one; any other word is
rejected with BAD_VALUE. -/
def Obligations.WrregAudNClearsTheWindow : Prop :=
  ∀ (s : State) (v : Word), s.payload = [v] → s.fits 1 →
    if 0 < v.toNat ∧ v.toNat < 65536 then
      exec (.wrreg 0x01) s = .next ({ s with audN := v, audAcc := 0x00000000, audCnt := 0x00000000 }.complete .ok [])
    else exec (.wrreg 0x01) s = .next (s.reject .badValue)

/-- R14, R15, R16: every word may be written to FM_PREV_RE, FM_PREV_IM and AUD_ACC and is stored unchanged; AUD_CNT takes
a value below the audio factor in force. -/
def Obligations.WrregStoresStreamContext : Prop :=
  ∀ (s : State) (v : Word), s.payload = [v] → s.fits 1 →
    exec (.wrreg 0x04) s = .next ({ s with fmPrevRe := v }.complete .ok []) ∧
    exec (.wrreg 0x05) s = .next ({ s with fmPrevIm := v }.complete .ok []) ∧
    exec (.wrreg 0x06) s = .next ({ s with audAcc := v }.complete .ok []) ∧
    (v.toNat < s.audN.toNat % 65536 → exec (.wrreg 0x07) s = .next ({ s with audCnt := v }.complete .ok []))

/-- R17: the two legal writes to STATUS: 0x100 sets ERR_STICKY to 0, 0 changes nothing. -/
def Obligations.WrregStatusClearsOnlyTheStickyBit : Prop :=
  ∀ s : State, s.fits 1 →
    (s.payload = [0x00000100] →
      exec (.wrreg 0x08) s = .next ({ s with status := s.status &&& 0xFFFFFEFF }.complete .ok [])) ∧
    (s.payload = [0x00000000] → exec (.wrreg 0x08) s = .next (s.complete .ok []))

/-- R94: every `WRREG` that is not legal is rejected, with the code of its first failing check, and writes nothing. -/
def Obligations.WrregRejects : Prop :=
  ∀ (s : State) (idx : BitVec 8),
    (8 < idx.toNat → exec (.wrreg idx) s = .next (s.reject .badReg)) ∧
    (idx.toNat ≤ 8 → s.payload.length ≠ 1 ∨ s.tooLong s.payload.length = true →
      exec (.wrreg idx) s = .next (s.reject .badLength)) ∧
    (∀ v : Word, idx.toNat ≤ 8 → s.payload = [v] → s.fits 1 →
      legalNumber (s.audN.toNat % 65536) idx.toNat v.toNat = false →
      exec (.wrreg idx) s = .next (s.reject .badValue))

/-- R118, R123: a word written is what the next command reads back, bit for bit, from every register but STATUS. -/
def Obligations.WriteThenReadGivesTheWordBack : Prop :=
  ∀ (s : State) (idx : BitVec 8) (v : Word) (rest : List HostMove),
    idx.toNat ≤ 7 → s.fits 1 → legalNumber (s.audN.toNat % 65536) idx.toNat v.toNat = true →
    s.host = issues [⟨encode (.wrreg idx), [v]⟩, ⟨encode (.rdreg idx), []⟩] rest →
    ∃ t, core.run 2 s = .next t ∧ t.answer = some ⟨0x00, [v]⟩ ∧ t.host = rest

/-- R54, R119, R123: `RESTORECTX` of the four values `SAVECTX` read gives the saved stream context back on any state with
the same AUD_N, and leaves the configuration alone. -/
def Obligations.RestoredContextIsTheSavedOne : Prop :=
  ∀ (s u : State) (rest : List HostMove), s.Legal → u.audN = s.audN → u.fits 1 →
    u.host = issues (Pseudo.restorectx (s.readValue .fmPrevRe) (s.readValue .fmPrevIm) (s.readValue .audAcc)
      (s.readValue .audCnt)).expand rest →
    ∃ t, core.run 4 u = .next t ∧ t.context = s.context ∧ t.configuration = u.configuration ∧ t.host = rest

/-- R54, R117: `CONFIG` with legal arguments leaves exactly that configuration, an empty window, and FM_PREV as it was. -/
def Obligations.ConfigSetsTheConfiguration : Prop :=
  ∀ (s : State) (niq naud gain mode : Word) (rest : List HostMove), s.fits 1 →
    0 < niq.toNat → niq.toNat < 65536 → 0 < naud.toNat → naud.toNat < 65536 → mode.toNat < 2 →
    s.host = issues (Pseudo.config niq naud gain mode).expand rest →
    ∃ t, core.run 4 s = .next t ∧ t.configuration = (niq, naud, gain, mode) ∧
      t.context = (s.fmPrevRe, s.fmPrevIm, 0, 0) ∧ t.host = rest

/-- R95: `RSTST` sets the four stream-context registers to their reset values and leaves the configuration; with a payload
it is rejected with BAD_LENGTH. -/
def Obligations.RststStartsANewStream : Prop :=
  ∀ s : State,
    (s.payload = [] → exec .rstst s = .next ({ s with
      fmPrevRe := 0x00000000, fmPrevIm := 0x00000000, audAcc := 0x00000000, audCnt := 0x00000000 }.complete .ok [])) ∧
    (s.payload ≠ [] → exec .rstst s = .next (s.reject .badLength))

/-! ### The IQ decimator -/

/-- R56: `IQDEC` emits `2 * floor(P / N)` words, words `2j` and `2j+1` being the exact sums of the I and Q halves of group
`j`, converted to binary32; it writes no register but STATUS. -/
def Obligations.IqdecEmitsGroupSums : Prop :=
  ∀ s : State, s.fits s.payload.length → 0 < s.nIq.toNat →
    let n := s.nIq.toNat
    ∃ out, exec .iqdec s = .next (s.complete .ok out) ∧
      out.length = 2 * (s.payload.length / n) ∧
      ∀ j, j < s.payload.length / n →
        out[2 * j]? = some (f32FromS32 (groupSum lowHalf n j s.payload)) ∧
        out[2 * j + 1]? = some (f32FromS32 (groupSum highHalf n j s.payload))

/-- R57's inference: the 32-bit summation registers never overflow, so they hold the exact sums of the pairs of the
current group, and GRP_CNT their number; a completed sum of at most 65535 pairs is exact too and within the stated
bounds. -/
def Obligations.SummationRegistersHoldExactSums : Prop :=
  (∀ (n : Half) (block : List Word), 0 < n.toNat →
    let r := (runSteps (iqStep n) SumRegs.zero block).1
    let full := block.length / n.toNat
    r.grpCnt.toNat = block.length % n.toNat ∧
    r.sumI.toInt = groupSum lowHalf n.toNat full block ∧
    r.sumQ.toInt = groupSum highHalf n.toNat full block) ∧
  (∀ (group : List Word) (half : Word → Half), group.length ≤ 65535 →
    (group.foldl (fun a w => a + sext32 (half w)) (0 : Word)).toInt = (group.map fun w => (half w).toInt).sum ∧
    -2147450880 ≤ (group.map fun w => (half w).toInt).sum ∧
    (group.map fun w => (half w).toInt).sum ≤ 2147385345)

/-- R60: a payload of fewer than N pairs gives an empty output and OK, not an error. -/
def Obligations.ShortBlockGivesEmptyOutput : Prop :=
  ∀ s : State, s.fits s.payload.length → s.payload.length < s.nIq.toNat →
    exec .iqdec s = .next (s.complete .ok [])

/-- R59: the trailing incomplete group is discarded: a block answers as its whole groups alone do, in whatever state the
next `IQDEC` finds the block. -/
def Obligations.TrailingPairsAreDiscarded : Prop :=
  ∀ (s : State) (groups trailing : List Word),
    0 < s.nIq.toNat → s.fits (groups ++ trailing).length →
    groups.length % s.nIq.toNat = 0 → trailing.length < s.nIq.toNat →
    ∃ out, exec .iqdec { s with payload := groups ++ trailing } = .next (s.complete .ok out) ∧
      exec .iqdec { s with payload := groups } = .next (s.complete .ok out)

/-- R63's inference. The exact sums of the groups of N pairs add up to the sum of the first M pairs, for every M that N
divides. The same holds of the outputs where every group sum and every running total is at most 2^24 in magnitude, as
they all are up to 512 pairs: their values add up, and so do their words under `f32_add` in order, to the one output at
factor M. -/
def Obligations.DecimationIsAssociative : Prop :=
  (∀ (half : Word → Half) (block : List Word) (n m : Nat), 0 < n → m % n = 0 →
    ((List.range (m / n)).map fun j => groupSum half n j block).sum = groupSum half m 0 block) ∧
  (∀ (s u : State) (m : Nat), s.fits m → 0 < m → m < 65536 → s.payload.length = m → 0 < s.nIq.toNat →
    m % s.nIq.toNat = 0 → u = { s with iqN := BitVec.ofNat 32 m } →
    (m ≤ 512 ∨ ∀ half : Word → Half, half = lowHalf ∨ half = highHalf → ∀ j, j ≤ m / s.nIq.toNat →
      |groupSum half s.nIq.toNat j s.payload| ≤ 2 ^ 24 ∧ |groupSum half (j * s.nIq.toNat) 0 s.payload| ≤ 2 ^ 24) →
    ∃ out re im, exec .iqdec s = .next (s.complete .ok out) ∧ exec .iqdec u = .next (u.complete .ok [re, im]) ∧
      ((complexSamples out).map fun z => f32Value z.1).sum = f32Value re ∧
      ((complexSamples out).map fun z => f32Value z.2).sum = f32Value im ∧
      ((complexSamples out).map Prod.fst).foldl f32Add 0x00000000 = re ∧
      ((complexSamples out).map Prod.snd).foldl f32Add 0x00000000 = im)

/-! ### Binary32 arithmetic -/

/-- R6: the integer conversion is correctly rounded, exact up to 2^24, and never a NaN, an infinity or -0. -/
def Obligations.IntegerConversionIsNearest : Prop :=
  (∀ n : Int, -2 ^ 31 ≤ n → n < 2 ^ 31 →
    RoundsTo n (f32FromS32 n) ∧ isFinite (f32FromS32 n) = true ∧ f32FromS32 n ≠ 0x80000000 ∧
    (n.natAbs ≤ 2 ^ 24 → f32Value (f32FromS32 n) = n)) ∧
  f32FromS32 0 = 0x00000000

/-- R7's inference: a factor is converted exactly, so the audio scale never divides by zero (R79). -/
def Obligations.FactorConversionIsExact : Prop :=
  ∀ n : Nat, 1 ≤ n → n ≤ 65535 →
    f32Value (f32FromU16 n) = n ∧ isFinite (f32FromU16 n) = true ∧ isZero (f32FromU16 n) = false

/-- R2, R3: addition and subtraction of finite values are computed exactly and rounded once; an exact zero sum is -0 only
for (-0) + (-0), and an exact zero difference, `x - x` among them, is -0 only for (-0) - (+0). -/
def Obligations.AdditionRoundsOnce : Prop :=
  ∀ a b : Word, isFinite a = true → isFinite b = true →
    RoundsTo (f32Value a + f32Value b : ℚ) (f32Add a b) ∧
    RoundsTo (f32Value a - f32Value b : ℚ) (f32Sub a b) ∧
    (f32Value a + f32Value b = 0 →
      f32Add a b = if a = 0x80000000 ∧ b = 0x80000000 then 0x80000000 else 0x00000000) ∧
    (f32Value a = f32Value b →
      f32Sub a b = if a = 0x80000000 ∧ b = 0x00000000 then 0x80000000 else 0x00000000)

/-- R2, R3: multiplication of finite values is computed exactly and rounded once, with the product of the signs. -/
def Obligations.MultiplicationRoundsOnce : Prop :=
  ∀ a b : Word, isFinite a = true → isFinite b = true →
    RoundsTo (f32Value a * f32Value b : ℚ) (f32Mul a b) ∧ f32Sign (f32Mul a b) = (f32Sign a != f32Sign b)

/-- R2, R3: division by a finite non-zero value is computed exactly and rounded once, with the product of the signs. -/
def Obligations.DivisionRoundsOnce : Prop :=
  ∀ a b : Word, isFinite a = true → isFinite b = true → isZero b = false →
    RoundsTo (f32Value a / f32Value b : ℚ) (f32Div a b) ∧ f32Sign (f32Div a b) = (f32Sign a != f32Sign b)

/-- R2, R3: the square root of a positive finite value is correctly rounded, and that of a zero is that zero. -/
def Obligations.SquareRootRoundsOnce : Prop :=
  ∀ a : Word, isFinite a = true →
    (isZero a = false → f32Sign a = false →
      RoundsTo (Real.sqrt (f32Value a : ℚ)) (f32Sqrt a) ∧ f32Sign (f32Sqrt a) = false) ∧
    (isZero a = true → f32Sqrt a = a)

/-- What IEEE 754 gives on NaNs, infinities, a zero divisor and the root of a negative value, for each of the five
operations. R2 names the standard and does not spell these out: they are the model's reading of it (log 14). -/
def Obligations.ExceptionalOperandsFollowTheStandard : Prop :=
  ∀ a b : Word,
    let productSign := f32Sign a != f32Sign b
    (isNaN a = true ∨ isNaN b = true →
      isNaN (f32Add a b) = true ∧ isNaN (f32Sub a b) = true ∧ isNaN (f32Mul a b) = true ∧ isNaN (f32Div a b) = true) ∧
    (isInf a = true → isInf b = true →
      f32Add a b = (if f32Sign a = f32Sign b then a else 0x7FC00000) ∧
      f32Sub a b = (if f32Sign a = f32Sign b then 0x7FC00000 else a) ∧
      isInf (f32Mul a b) = true ∧ f32Sign (f32Mul a b) = productSign ∧
      isNaN (f32Div a b) = true) ∧
    (isInf a = true → isFinite b = true →
      f32Add a b = a ∧ f32Add b a = a ∧ f32Sub a b = a ∧
      isInf (f32Sub b a) = true ∧ f32Sign (f32Sub b a) = !f32Sign a ∧
      (isZero b = true → isNaN (f32Mul a b) = true ∧ isNaN (f32Mul b a) = true) ∧
      (isZero b = false → isInf (f32Mul a b) = true ∧ f32Sign (f32Mul a b) = productSign ∧ f32Mul b a = f32Mul a b) ∧
      isInf (f32Div a b) = true ∧ f32Sign (f32Div a b) = productSign ∧
      isZero (f32Div b a) = true ∧ f32Sign (f32Div b a) = productSign) ∧
    (isFinite a = true → isZero b = true →
      (isZero a = true → isNaN (f32Div a b) = true) ∧
      (isZero a = false → isInf (f32Div a b) = true ∧ f32Sign (f32Div a b) = productSign)) ∧
    (isNaN a = true → isNaN (f32Sqrt a) = true) ∧
    (f32Sign a = true → isZero a = false → isNaN (f32Sqrt a) = true) ∧
    f32Sqrt 0x7F800000 = 0x7F800000

/-- R5: every NaN that a data command emits is the canonical one, and so is a NaN it newly leaves in AUD_ACC. -/
def Obligations.EmittedNaNsAreCanonical : Prop :=
  ∀ (i : Instr) (s t : State) (a : Answer), i ∈ [Instr.iqdec, .fmdem, .amdem, .auddec, .pipe] →
    exec i s = .next t → t.answer = some a →
    (∀ w ∈ a.out, isNaN w = true → w = 0x7FC00000) ∧
    (isNaN t.audAcc = true → t.audAcc = s.audAcc ∨ t.audAcc = 0x7FC00000)

/-! ### The FM demodulator -/

/-- R65: the fixed lines of the angle, in order; the sign of a zero part is ignored. -/
def Obligations.AngleOnTheAxes : Prop :=
  ∀ re im : Word,
    (isNaN re = true ∨ isNaN im = true → angle re im = 0x7FC00000) ∧
    (isZero re = true → isZero im = true → angle re im = 0x00000000) ∧
    (isNaN re = false → isZero re = false → isZero im = true →
      angle re im = if f32Sign re then 0x40490FDB else 0x00000000) ∧
    (isNaN im = false → isZero im = false → isZero re = true →
      angle re im = if f32Sign im then 0xBFC90FDB else 0x3FC90FDB) ∧
    (isNaN re = false → isNaN im = false → isZero re = false → isZero im = false → angle re im = atan2F32 im re)

/-- R66: ATAN2-RANGE and ATAN2-SIGN hold of the open angle function, whatever it is. -/
def Obligations.OpenAngleKeepsRangeAndSign : Prop :=
  ∀ y x : Word,
    isNaN (atan2F32 y x) = false ∧ |f32Value (atan2F32 y x)| ≤ f32Value 0x40490FDB ∧
    (f32Sign y = false → 0 ≤ f32Value (atan2F32 y x)) ∧ (f32Sign y = true → f32Value (atan2F32 y x) ≤ 0)

/-- R66, ATAN2-ACC: whatever bound `err` the open angle function meets, each word `FMDEM` emits for a finite product off
the axes is within `err` units in the last place of the real angle of that product. The bound is a premise: the model
gives it no value (log 5). -/
def Obligations.FmdemAnglesAreAccurate : Prop :=
  ∀ (err : ℝ) (s : State), Atan2Acc err → s.fits s.payload.length → s.payload.length % 2 = 0 →
    ∃ t out, exec .fmdem s = .next t ∧ t.answer = some ⟨0x00, out⟩ ∧
      ∀ j, j < s.payload.length / 2 →
        let z := sampleAt s.payload j
        let p := sampleBefore s s.payload j
        let re := f32Add (f32Mul z.1 p.1) (f32Mul z.2 p.2)
        let im := f32Sub (f32Mul z.2 p.1) (f32Mul z.1 p.2)
        isFinite re = true → isFinite im = true → isZero re = false → isZero im = false →
        ∃ w, out[j]? = some w ∧
          |(f32Value w : ℝ) - Complex.arg ⟨f32Value re, f32Value im⟩| ≤ err * f32Ulp w

/-- R64, R67, and R68's inference for K = 0: `FMDEM` of K samples emits K angles, word `j` the angle of sample z = (a, b)
against the sample p = (c, d) before it, `re = a·c + b·d` and `im = b·c - a·d` in that operand order; it leaves the last
sample in FM_PREV, or FM_PREV as it was when K = 0, and writes nothing else. -/
def Obligations.FmdemEmitsAngles : Prop :=
  ∀ s : State, s.fits s.payload.length → s.payload.length % 2 = 0 →
    let k := s.payload.length / 2
    let last := sampleBefore s s.payload k
    ∃ out, exec .fmdem s = .next ({ s with fmPrevRe := last.1, fmPrevIm := last.2 }.complete .ok out) ∧
      out.length = k ∧
      ∀ j, j < k →
        let z := sampleAt s.payload j
        let p := sampleBefore s s.payload j
        out[j]? = some (angle (f32Add (f32Mul z.1 p.1) (f32Mul z.2 p.2)) (f32Sub (f32Mul z.2 p.1) (f32Mul z.1 p.2)))

/-- R69's inference: `FMDEM` of a block and of its two parts in succession give the same angles and the same FM_PREV. -/
def Obligations.FmdemIsContinuousAcrossSplits : Prop :=
  ∀ (s : State) (p q : List Word), s.fits (p ++ q).length → p.length % 2 = 0 → q.length % 2 = 0 →
    ∃ (u t : State) (outP outQ : List Word),
      exec .fmdem { s with payload := p } = .next (u.complete .ok outP) ∧
      exec .fmdem { u.complete .ok outP with payload := q } = .next (t.complete .ok outQ) ∧
      exec .fmdem { s with payload := p ++ q } = .next (t.complete .ok (outP ++ outQ))

/-- R70's inference: the zero sample, as current or as previous one, with a finite other sample gives +0. -/
def Obligations.ZeroSampleGivesZeroAngle : Prop :=
  ∀ (s : State) (a b : Word), s.fits 2 → s.payload = [a, b] →
    isFinite a = true → isFinite b = true → isFinite s.fmPrevRe = true → isFinite s.fmPrevIm = true →
    (isZero a = true ∧ isZero b = true) ∨ (isZero s.fmPrevRe = true ∧ isZero s.fmPrevIm = true) →
    exec .fmdem s = .next ({ s with fmPrevRe := a, fmPrevIm := b }.complete .ok [0x00000000])

/-- R71's inference: a finite sample equal to its predecessor gives +0 when its product a·b does not overflow, and QNAN
when it does. -/
def Obligations.EqualSampleGivesZeroAngle : Prop :=
  ∀ (s : State) (a b : Word), s.fits 2 → s.payload = [a, b] → s.fmPrevRe = a → s.fmPrevIm = b →
    isFinite a = true → isFinite b = true →
    exec .fmdem s = .next (s.complete .ok [if isFinite (f32Mul a b) then 0x00000000 else 0x7FC00000])

/-- R72's inference: the first angle of a stream, after `RSTST`, is +0 for any finite first sample. -/
def Obligations.FirstAngleOfAStreamIsZero : Prop :=
  ∀ (s : State) (a b : Word) (rest : List HostMove), s.fits 2 → isFinite a = true → isFinite b = true →
    s.host = issues [⟨encode .rstst, []⟩, ⟨encode .fmdem, [a, b]⟩] rest →
    ∃ t, core.run 2 s = .next t ∧ t.answer = some ⟨0x00, [0x00000000]⟩ ∧ t.fmPrevRe = a ∧ t.fmPrevIm = b

/-- R73's inference: every word `FMDEM` emits is QNAN or lies in [-PI_F32, PI_F32], and when all samples and the previous
sample are in the range of `IQDEC`'s outputs none is QNAN. -/
def Obligations.AnglesStayInRange : Prop :=
  ∀ (s t : State) (a : Answer), exec .fmdem s = .next t → t.answer = some a →
    (∀ w ∈ a.out, w = 0x7FC00000 ∨ (isNaN w = false ∧ |f32Value w| ≤ f32Value 0x40490FDB)) ∧
    ((∀ w ∈ s.payload, inIqRange w) → inIqRange s.fmPrevRe → inIqRange s.fmPrevIm → ∀ w ∈ a.out, isNaN w = false)

/-! ### The AM demodulator -/

/-- R74, R75: `AMDEM` of K samples emits K magnitudes, in order, and writes no register but STATUS. -/
def Obligations.AmdemEmitsMagnitudes : Prop :=
  ∀ s : State, s.fits s.payload.length → s.payload.length % 2 = 0 →
    ∃ out, exec .amdem s = .next (s.complete .ok out) ∧ out.length = s.payload.length / 2 ∧
      ∀ k, k < s.payload.length / 2 →
        out[k]? = some (canon (f32Sqrt (f32Add
          (f32Mul (sampleAt s.payload k).1 (sampleAt s.payload k).1)
          (f32Mul (sampleAt s.payload k).2 (sampleAt s.payload k).2))))

/-- R76: `AMDEM` is stateless: whatever the registers hold, a block's output is that of its two parts, one after the
other, and no register but STATUS is written. -/
def Obligations.AmdemIsStateless : Prop :=
  ∀ (s u : State) (p q : List Word), s.fits (p ++ q).length → u.fits (p ++ q).length →
    p.length % 2 = 0 → q.length % 2 = 0 →
    ∃ outP outQ,
      exec .amdem { s with payload := p } = .next (s.complete .ok outP) ∧
      exec .amdem { u with payload := q } = .next (u.complete .ok outQ) ∧
      exec .amdem { s with payload := p ++ q } = .next (s.complete .ok (outP ++ outQ))

/-- R77's inference: no output of `AMDEM` is negative or -0. -/
def Obligations.MagnitudesAreNeverNegative : Prop :=
  ∀ (s t : State) (a : Answer), exec .amdem s = .next t → t.answer = some a →
    ∀ w ∈ a.out, w = 0x7FC00000 ∨ (isNaN w = false ∧ f32Sign w = false)

/-! ### The audio decimator -/

/-- R79 to R81, and the inferences of R82 and R84: `AUDDEC` emits, for each window completed, its sequential sum times the scale, and leaves the partial sum
and the number of its samples; the first window starts from the carried AUD_ACC, each later one from +0. -/
def Obligations.AuddecEmitsWindows : Prop :=
  ∀ s : State, s.fits s.payload.length → s.cnt.toNat < s.nAud.toNat →
    let n := s.nAud.toNat
    let c := s.cnt.toNat
    let total := c + s.payload.length
    let scale := canon (f32Div s.audGain (f32FromU16 n))
    ∃ out, exec .auddec s = .next ({ s with
        audAcc := windowSum (windowStart s (total / n)) (s.payload.drop (windowOffset n c (total / n))),
        audCnt := BitVec.ofNat 32 (total % n) }.complete .ok out) ∧
      out.length = total / n ∧
      ∀ j, j < total / n →
        out[j]? = some (canon (f32Mul (windowSum (windowStart s j) (windowSamples n c j s.payload)) scale))

/-- R83: windows span commands: `AUDDEC` of a block and of its two parts in succession give the same words and leave the
same window. -/
def Obligations.WindowsSpanCommands : Prop :=
  ∀ (s : State) (p q : List Word), s.fits (p ++ q).length → s.cnt.toNat < s.nAud.toNat →
    ∃ (u t : State) (outP outQ : List Word),
      exec .auddec { s with payload := p } = .next (u.complete .ok outP) ∧
      exec .auddec { u.complete .ok outP with payload := q } = .next (t.complete .ok outQ) ∧
      exec .auddec { s with payload := p ++ q } = .next (t.complete .ok (outP ++ outQ))

/-! ### The chain -/

/-- R89's inference: `PIPE` ends in the state, and with the answer, of `IQDEC`, the demodulator MODE selects and `AUDDEC`
issued one after the other, each on the output of the one before. Issued on their own, they need the middle command's
payload within `max_payload` as well, which R89 does not say (log 17); with that bound lifted for the three commands
alone, `PIPE` is what they give for every payload it accepts. -/
def Obligations.PipeIsItsThreeStages : Prop :=
  ∀ s : State, 0 < s.nIq.toNat → s.fits s.payload.length →
    (s.fits (2 * (s.payload.length / s.nIq.toNat)) →
      ∃ (c d : List Word) (u t : State),
        exec .iqdec s = .next (s.complete .ok c) ∧
        exec (demodulator s) { s.complete .ok c with payload := c } = .next (u.complete .ok d) ∧
        exec .auddec { u.complete .ok d with payload := d } = .next t ∧
        exec .pipe s = .next t) ∧
    (let r := { s with maxPayload := none }
      ∃ (c d : List Word) (u t : State),
        exec .iqdec r = .next (r.complete .ok c) ∧
        exec (demodulator r) { r.complete .ok c with payload := c } = .next (u.complete .ok d) ∧
        exec .auddec { u.complete .ok d with payload := d } = .next t ∧
        exec .pipe s = .next { t with maxPayload := s.maxPayload })

/-- R88: `PIPE` emits audio only, one word per completed window, and writes the window and FM_PREV. The number of words
and the final count are R84's inference, and that AM mode keeps FM_PREV is R90's. What stands in the words, the window and,
in FM mode, FM_PREV is `PipeIsItsThreeStages`. -/
def Obligations.PipeWritesWindowAndFmPrevOnly : Prop :=
  ∀ s : State, s.fits s.payload.length → 0 < s.nIq.toNat → s.cnt.toNat < s.nAud.toNat →
    let total := s.cnt.toNat + s.payload.length / s.nIq.toNat
    ∃ re im acc out,
      exec .pipe s = .next ({ s with
        fmPrevRe := re, fmPrevIm := im, audAcc := acc, audCnt := BitVec.ofNat 32 (total % s.nAud.toNat) }.complete .ok out) ∧
      out.length = total / s.nAud.toNat ∧
      (s.mode.getLsbD 0 = true → re = s.fmPrevRe ∧ im = s.fmPrevIm)

/-- A data command with an odd complex payload, or one above `max_payload`, is rejected with BAD_LENGTH (R101 item 4). -/
def Obligations.DataCommandsRejectBadLengths : Prop :=
  ∀ s : State,
    (s.payload.length % 2 = 1 → exec .fmdem s = .next (s.reject .badLength) ∧
      exec .amdem s = .next (s.reject .badLength)) ∧
    (∀ i ∈ [Instr.iqdec, .fmdem, .amdem, .auddec, .pipe], s.tooLong s.payload.length = true →
      exec i s = .next (s.reject .badLength))

/-! ### The host's side -/

/-- R33, R34: the little-endian bytes of packed IQ words are the raw samples' bytes, the unpaired last I dropped, and the
words are read back from their bytes. -/
def Obligations.PackedWordsKeepTheByteStream : Prop :=
  (∀ raw : List Half, bytesOfWords (packRaw raw) = bytesOfHalves (raw.take (2 * (raw.length / 2)))) ∧
  (∀ ws : List Word, wordsOfBytes (bytesOfWords ws) = ws) ∧
  (∀ i q : Half, lowHalf (iqPair i q) = i ∧ highHalf (iqPair i q) = q ∧
    (iqI (iqPair i q)).toInt = i.toInt ∧ (iqQ (iqPair i q)).toInt = q.toInt)
end

