-- ==== Sys2Proof/Laws/Loops.lean ====
section
/-! SUPPORT. The loop over a payload: it splits wherever the payload splits, and samples and words convert. -/

namespace Sys2Proof.Machine

variable {σ ι ω : Type} (f : σ → ι → σ × List ω)

@[simp] theorem runSteps_nil (r : σ) : runSteps f r [] = (r, []) := rfl

theorem runSteps_cons (r : σ) (x : ι) (xs : List ι) :
    runSteps f r (x :: xs) = ((runSteps f (f r x).1 xs).1, (f r x).2 ++ (runSteps f (f r x).1 xs).2) := rfl

/-- A loop over two inputs in succession is the loop over the whole: the one fact behind every split law (R69, R76, R83). -/
theorem runSteps_append (r : σ) (xs ys : List ι) :
    runSteps f r (xs ++ ys) =
      ((runSteps f (runSteps f r xs).1 ys).1, (runSteps f r xs).2 ++ (runSteps f (runSteps f r xs).1 ys).2) := by
  induction xs generalizing r with
  | nil => simp
  | cons x xs ih => simp [runSteps_cons, ih]

/-- What holds of the carried registers before the loop and is kept by each step holds after it. -/
theorem runSteps_invariant (P : σ → Prop) (step : ∀ r x, P r → P (f r x).1) (xs : List ι) :
    ∀ r, P r → P (runSteps f r xs).1 := by
  induction xs with
  | nil => intro r h; exact h
  | cons x xs ih => intro r h; exact ih _ (step r x h)

/-- What holds of every output of every step holds of every output of the loop. -/
theorem runSteps_outputs (Q : ω → Prop) (step : ∀ r x, ∀ o ∈ (f r x).2, Q o) (xs : List ι) :
    ∀ r, ∀ o ∈ (runSteps f r xs).2, Q o := by
  induction xs with
  | nil => intro r o h; cases h
  | cons x xs ih =>
    intro r o h
    rw [runSteps_cons, List.mem_append] at h
    exact h.elim (step r x o) (ih _ o)

@[simp] theorem complexSamples_nil : complexSamples [] = [] := rfl
@[simp] theorem complexSamples_cons (a b : Word) (l : List Word) :
    complexSamples (a :: b :: l) = (a, b) :: complexSamples l := rfl
@[simp] theorem sampleWords_nil : sampleWords [] = [] := rfl
@[simp] theorem sampleWords_cons (z : Sample) (zs : List Sample) :
    sampleWords (z :: zs) = z.1 :: z.2 :: sampleWords zs := rfl

@[simp] theorem complexSamples_sampleWords (zs : List Sample) : complexSamples (sampleWords zs) = zs := by
  induction zs with
  | nil => rfl
  | cons z zs ih => simp [ih]

@[simp] theorem length_sampleWords (zs : List Sample) : (sampleWords zs).length = 2 * zs.length := by
  induction zs with
  | nil => rfl
  | cons z zs ih => simp [ih]; ring

/-- An even payload is a list of samples (R49). -/
theorem even_payload (p : List Word) (h : p.length % 2 = 0) : p = sampleWords (complexSamples p) := by
  induction p using complexSamples.induct with
  | case1 re im rest ih => simp at h ⊢; exact ih (by omega)
  | case2 l hl =>
    match l, hl with
    | [], _ => rfl
    | [a], _ => simp at h
    | a :: b :: l, hl => exact absurd rfl (hl a b l)

theorem complexSamples_append (p q : List Word) (h : p.length % 2 = 0) :
    complexSamples (p ++ q) = complexSamples p ++ complexSamples q := by
  rw [even_payload p h]
  generalize complexSamples p = zs
  induction zs with
  | nil => rfl
  | cons z zs ih => simpa using ih

theorem length_complexSamples (p : List Word) (h : p.length % 2 = 0) : (complexSamples p).length = p.length / 2 := by
  have := congrArg List.length (even_payload p h)
  rw [length_sampleWords] at this; omega

/-- Sample `k` of a payload, by its words (R49). -/
theorem complexSamples_getElem? (p : List Word) (h : p.length % 2 = 0) (k : Nat) (hk : k < p.length / 2) :
    (complexSamples p)[k]? = some (sampleAt p k) := by
  induction p using complexSamples.induct generalizing k with
  | case1 re im rest ih =>
    simp only [List.length_cons] at h hk
    cases k with
    | zero => rfl
    | succ k =>
      rw [complexSamples_cons, List.getElem?_cons_succ, ih (by omega) k (by omega)]
      simp [sampleAt, Nat.mul_add]
  | case2 l hl =>
    match l, hl with
    | [], _ => simp at hk
    | [a], _ => simp at h
    | a :: b :: l, hl => exact absurd rfl (hl a b l)

end Sys2Proof.Machine
end

