-- ==== Sys2Proof/Laws/State.lean ====
section
/-! SUPPORT. What each update of the state leaves in each field, and the reads that go through the fields. -/

namespace Sys2Proof.Machine

/-! `State.complete` -/

@[simp] theorem complete_iqN (s : State) (c : ResultCode) (out : List Word) : (s.complete c out).iqN = s.iqN := rfl
@[simp] theorem complete_audN (s : State) (c : ResultCode) (out : List Word) : (s.complete c out).audN = s.audN := rfl
@[simp] theorem complete_audGain (s : State) (c : ResultCode) (out : List Word) : (s.complete c out).audGain = s.audGain := rfl
@[simp] theorem complete_mode (s : State) (c : ResultCode) (out : List Word) : (s.complete c out).mode = s.mode := rfl
@[simp] theorem complete_fmPrevRe (s : State) (c : ResultCode) (out : List Word) : (s.complete c out).fmPrevRe = s.fmPrevRe := rfl
@[simp] theorem complete_fmPrevIm (s : State) (c : ResultCode) (out : List Word) : (s.complete c out).fmPrevIm = s.fmPrevIm := rfl
@[simp] theorem complete_audAcc (s : State) (c : ResultCode) (out : List Word) : (s.complete c out).audAcc = s.audAcc := rfl
@[simp] theorem complete_audCnt (s : State) (c : ResultCode) (out : List Word) : (s.complete c out).audCnt = s.audCnt := rfl
@[simp] theorem complete_status (s : State) (c : ResultCode) (out : List Word) : (s.complete c out).status = recordCode c s.status := rfl
@[simp] theorem complete_payload (s : State) (c : ResultCode) (out : List Word) : (s.complete c out).payload = [] := rfl
@[simp] theorem complete_answer (s : State) (c : ResultCode) (out : List Word) : (s.complete c out).answer = some ⟨codeByte c, out⟩ := rfl
@[simp] theorem complete_host (s : State) (c : ResultCode) (out : List Word) : (s.complete c out).host = s.host := rfl
@[simp] theorem complete_maxPayload (s : State) (c : ResultCode) (out : List Word) : (s.complete c out).maxPayload = s.maxPayload := rfl

/-! `State.reject` -/

@[simp] theorem reject_iqN (s : State) (c : ResultCode) : (s.reject c).iqN = s.iqN := rfl
@[simp] theorem reject_audN (s : State) (c : ResultCode) : (s.reject c).audN = s.audN := rfl
@[simp] theorem reject_audGain (s : State) (c : ResultCode) : (s.reject c).audGain = s.audGain := rfl
@[simp] theorem reject_mode (s : State) (c : ResultCode) : (s.reject c).mode = s.mode := rfl
@[simp] theorem reject_fmPrevRe (s : State) (c : ResultCode) : (s.reject c).fmPrevRe = s.fmPrevRe := rfl
@[simp] theorem reject_fmPrevIm (s : State) (c : ResultCode) : (s.reject c).fmPrevIm = s.fmPrevIm := rfl
@[simp] theorem reject_audAcc (s : State) (c : ResultCode) : (s.reject c).audAcc = s.audAcc := rfl
@[simp] theorem reject_audCnt (s : State) (c : ResultCode) : (s.reject c).audCnt = s.audCnt := rfl
@[simp] theorem reject_status (s : State) (c : ResultCode) : (s.reject c).status = recordCode c s.status := rfl
@[simp] theorem reject_payload (s : State) (c : ResultCode) : (s.reject c).payload = [] := rfl
@[simp] theorem reject_answer (s : State) (c : ResultCode) : (s.reject c).answer = some ⟨codeByte c, []⟩ := rfl
@[simp] theorem reject_host (s : State) (c : ResultCode) : (s.reject c).host = s.host := rfl
@[simp] theorem reject_maxPayload (s : State) (c : ResultCode) : (s.reject c).maxPayload = s.maxPayload := rfl

/-! `State.present` -/

@[simp] theorem present_iqN (s : State) (c : Command) : (s.present c).iqN = s.iqN := rfl
@[simp] theorem present_audN (s : State) (c : Command) : (s.present c).audN = s.audN := rfl
@[simp] theorem present_audGain (s : State) (c : Command) : (s.present c).audGain = s.audGain := rfl
@[simp] theorem present_mode (s : State) (c : Command) : (s.present c).mode = s.mode := rfl
@[simp] theorem present_fmPrevRe (s : State) (c : Command) : (s.present c).fmPrevRe = s.fmPrevRe := rfl
@[simp] theorem present_fmPrevIm (s : State) (c : Command) : (s.present c).fmPrevIm = s.fmPrevIm := rfl
@[simp] theorem present_audAcc (s : State) (c : Command) : (s.present c).audAcc = s.audAcc := rfl
@[simp] theorem present_audCnt (s : State) (c : Command) : (s.present c).audCnt = s.audCnt := rfl
@[simp] theorem present_status (s : State) (c : Command) : (s.present c).status = s.status := rfl
@[simp] theorem present_payload (s : State) (c : Command) : (s.present c).payload = c.payload := rfl
@[simp] theorem present_answer (s : State) (c : Command) : (s.present c).answer = s.answer := rfl
@[simp] theorem present_host (s : State) (c : Command) : (s.present c).host = s.host := rfl
@[simp] theorem present_maxPayload (s : State) (c : Command) : (s.present c).maxPayload = s.maxPayload := rfl

/-! `State.assertReset` -/

@[simp] theorem assertReset_iqN (s : State) : (s.assertReset).iqN = State.reset.iqN := rfl
@[simp] theorem assertReset_audN (s : State) : (s.assertReset).audN = State.reset.audN := rfl
@[simp] theorem assertReset_audGain (s : State) : (s.assertReset).audGain = State.reset.audGain := rfl
@[simp] theorem assertReset_mode (s : State) : (s.assertReset).mode = State.reset.mode := rfl
@[simp] theorem assertReset_fmPrevRe (s : State) : (s.assertReset).fmPrevRe = State.reset.fmPrevRe := rfl
@[simp] theorem assertReset_fmPrevIm (s : State) : (s.assertReset).fmPrevIm = State.reset.fmPrevIm := rfl
@[simp] theorem assertReset_audAcc (s : State) : (s.assertReset).audAcc = State.reset.audAcc := rfl
@[simp] theorem assertReset_audCnt (s : State) : (s.assertReset).audCnt = State.reset.audCnt := rfl
@[simp] theorem assertReset_status (s : State) : (s.assertReset).status = State.reset.status := rfl
@[simp] theorem assertReset_payload (s : State) : (s.assertReset).payload = State.reset.payload := rfl
@[simp] theorem assertReset_answer (s : State) : (s.assertReset).answer = State.reset.answer := rfl
@[simp] theorem assertReset_host (s : State) : (s.assertReset).host = s.host := rfl
@[simp] theorem assertReset_maxPayload (s : State) : (s.assertReset).maxPayload = s.maxPayload := rfl

/-! `State.setWindow` -/

@[simp] theorem setWindow_iqN (s : State) (w : Window) : (s.setWindow w).iqN = s.iqN := rfl
@[simp] theorem setWindow_audN (s : State) (w : Window) : (s.setWindow w).audN = s.audN := rfl
@[simp] theorem setWindow_audGain (s : State) (w : Window) : (s.setWindow w).audGain = s.audGain := rfl
@[simp] theorem setWindow_mode (s : State) (w : Window) : (s.setWindow w).mode = s.mode := rfl
@[simp] theorem setWindow_fmPrevRe (s : State) (w : Window) : (s.setWindow w).fmPrevRe = s.fmPrevRe := rfl
@[simp] theorem setWindow_fmPrevIm (s : State) (w : Window) : (s.setWindow w).fmPrevIm = s.fmPrevIm := rfl
@[simp] theorem setWindow_audAcc (s : State) (w : Window) : (s.setWindow w).audAcc = w.acc := rfl
@[simp] theorem setWindow_audCnt (s : State) (w : Window) : (s.setWindow w).audCnt = zext32 w.cnt := rfl
@[simp] theorem setWindow_status (s : State) (w : Window) : (s.setWindow w).status = s.status := rfl
@[simp] theorem setWindow_payload (s : State) (w : Window) : (s.setWindow w).payload = s.payload := rfl
@[simp] theorem setWindow_answer (s : State) (w : Window) : (s.setWindow w).answer = s.answer := rfl
@[simp] theorem setWindow_host (s : State) (w : Window) : (s.setWindow w).host = s.host := rfl
@[simp] theorem setWindow_maxPayload (s : State) (w : Window) : (s.setWindow w).maxPayload = s.maxPayload := rfl

/-! `State.newStream` -/

@[simp] theorem newStream_iqN (s : State) : (s.newStream).iqN = s.iqN := rfl
@[simp] theorem newStream_audN (s : State) : (s.newStream).audN = s.audN := rfl
@[simp] theorem newStream_audGain (s : State) : (s.newStream).audGain = s.audGain := rfl
@[simp] theorem newStream_mode (s : State) : (s.newStream).mode = s.mode := rfl
@[simp] theorem newStream_fmPrevRe (s : State) : (s.newStream).fmPrevRe = posZero := rfl
@[simp] theorem newStream_fmPrevIm (s : State) : (s.newStream).fmPrevIm = posZero := rfl
@[simp] theorem newStream_audAcc (s : State) : (s.newStream).audAcc = posZero := rfl
@[simp] theorem newStream_audCnt (s : State) : (s.newStream).audCnt = 0x00000000#32 := rfl
@[simp] theorem newStream_status (s : State) : (s.newStream).status = s.status := rfl
@[simp] theorem newStream_payload (s : State) : (s.newStream).payload = s.payload := rfl
@[simp] theorem newStream_answer (s : State) : (s.newStream).answer = s.answer := rfl
@[simp] theorem newStream_host (s : State) : (s.newStream).host = s.host := rfl
@[simp] theorem newStream_maxPayload (s : State) : (s.newStream).maxPayload = s.maxPayload := rfl

/-! `State.withFetchWord` -/

@[simp] theorem withFetchWord_iqN (s : State) (nbits w : Nat) : (s.withFetchWord nbits w).iqN = s.iqN := rfl
@[simp] theorem withFetchWord_audN (s : State) (nbits w : Nat) : (s.withFetchWord nbits w).audN = s.audN := rfl
@[simp] theorem withFetchWord_audGain (s : State) (nbits w : Nat) : (s.withFetchWord nbits w).audGain = s.audGain := rfl
@[simp] theorem withFetchWord_mode (s : State) (nbits w : Nat) : (s.withFetchWord nbits w).mode = s.mode := rfl
@[simp] theorem withFetchWord_fmPrevRe (s : State) (nbits w : Nat) : (s.withFetchWord nbits w).fmPrevRe = s.fmPrevRe := rfl
@[simp] theorem withFetchWord_fmPrevIm (s : State) (nbits w : Nat) : (s.withFetchWord nbits w).fmPrevIm = s.fmPrevIm := rfl
@[simp] theorem withFetchWord_audAcc (s : State) (nbits w : Nat) : (s.withFetchWord nbits w).audAcc = s.audAcc := rfl
@[simp] theorem withFetchWord_audCnt (s : State) (nbits w : Nat) : (s.withFetchWord nbits w).audCnt = s.audCnt := rfl
@[simp] theorem withFetchWord_status (s : State) (nbits w : Nat) : (s.withFetchWord nbits w).status = s.status := rfl
@[simp] theorem withFetchWord_payload (s : State) (nbits w : Nat) : (s.withFetchWord nbits w).payload = s.payload := rfl
@[simp] theorem withFetchWord_answer (s : State) (nbits w : Nat) : (s.withFetchWord nbits w).answer = s.answer := rfl
@[simp] theorem withFetchWord_host (s : State) (nbits w : Nat) : (s.withFetchWord nbits w).host = .command ⟨tableWord nbits w, fetchPayload nbits w⟩ :: s.host := rfl
@[simp] theorem withFetchWord_maxPayload (s : State) (nbits w : Nat) : (s.withFetchWord nbits w).maxPayload = s.maxPayload := rfl

/-! `State.writeReg`, one register at a time -/

@[simp] theorem writeReg_iqN (s : State) (v : Word) : s.writeReg .iqN v = { s with iqN := v } := rfl
@[simp] theorem writeReg_audGain (s : State) (v : Word) : s.writeReg .audGain v = { s with audGain := v } := rfl
@[simp] theorem writeReg_mode (s : State) (v : Word) : s.writeReg .mode v = { s with mode := v } := rfl
@[simp] theorem writeReg_fmPrevRe (s : State) (v : Word) : s.writeReg .fmPrevRe v = { s with fmPrevRe := v } := rfl
@[simp] theorem writeReg_fmPrevIm (s : State) (v : Word) : s.writeReg .fmPrevIm v = { s with fmPrevIm := v } := rfl
@[simp] theorem writeReg_audAcc (s : State) (v : Word) : s.writeReg .audAcc v = { s with audAcc := v } := rfl
@[simp] theorem writeReg_audCnt (s : State) (v : Word) : s.writeReg .audCnt v = { s with audCnt := v } := rfl
@[simp] theorem writeReg_audN (s : State) (v : Word) :
    s.writeReg .audN v = { s with audN := v, audAcc := posZero, audCnt := 0x00000000#32 } := rfl
theorem writeReg_status (s : State) (v : Word) :
    s.writeReg .status v = { s with status := if v.getLsbD 8 then clearSticky s.status else s.status } := by
  simp only [State.writeReg]; split <;> rfl

/-! The reads that depend on one field only -/

@[simp] theorem complete_nIq (s : State) (c : ResultCode) (out : List Word) : (s.complete c out).nIq = s.nIq := rfl
@[simp] theorem reject_nIq (s : State) (c : ResultCode) : (s.reject c).nIq = s.nIq := rfl
@[simp] theorem present_nIq (s : State) (c : Command) : (s.present c).nIq = s.nIq := rfl
@[simp] theorem complete_nAud (s : State) (c : ResultCode) (out : List Word) : (s.complete c out).nAud = s.nAud := rfl
@[simp] theorem reject_nAud (s : State) (c : ResultCode) : (s.reject c).nAud = s.nAud := rfl
@[simp] theorem present_nAud (s : State) (c : Command) : (s.present c).nAud = s.nAud := rfl
@[simp] theorem complete_cnt (s : State) (c : ResultCode) (out : List Word) : (s.complete c out).cnt = s.cnt := rfl
@[simp] theorem reject_cnt (s : State) (c : ResultCode) : (s.reject c).cnt = s.cnt := rfl
@[simp] theorem present_cnt (s : State) (c : Command) : (s.present c).cnt = s.cnt := rfl
@[simp] theorem complete_fmMode (s : State) (c : ResultCode) (out : List Word) : (s.complete c out).fmMode = s.fmMode := rfl
@[simp] theorem reject_fmMode (s : State) (c : ResultCode) : (s.reject c).fmMode = s.fmMode := rfl
@[simp] theorem present_fmMode (s : State) (c : Command) : (s.present c).fmMode = s.fmMode := rfl
@[simp] theorem complete_window (s : State) (c : ResultCode) (out : List Word) : (s.complete c out).window = s.window := rfl
@[simp] theorem reject_window (s : State) (c : ResultCode) : (s.reject c).window = s.window := rfl
@[simp] theorem present_window (s : State) (c : Command) : (s.present c).window = s.window := rfl
@[simp] theorem complete_tooLong (s : State) (c : ResultCode) (out : List Word) (len : Nat) : (s.complete c out).tooLong len = s.tooLong len := rfl
@[simp] theorem reject_tooLong (s : State) (c : ResultCode) (len : Nat) : (s.reject c).tooLong len = s.tooLong len := rfl
@[simp] theorem present_tooLong (s : State) (c : Command) (len : Nat) : (s.present c).tooLong len = s.tooLong len := rfl

/-- Completing with OK twice is completing with OK once, but for the answer. -/
theorem complete_complete (s : State) (c : ResultCode) (out out' : List Word) :
    (s.complete c out').complete c out = { s with
      status := recordCode c (recordCode c s.status), answer := some ⟨codeByte c, out⟩, payload := [] } := rfl

/-- A completed state does not depend on the payload and the answer it had before. -/
theorem complete_congr (s : State) (p : List Word) (a : Option Answer) (c : ResultCode) (out : List Word) :
    { s with payload := p, answer := a }.complete c out = s.complete c out := rfl

end Sys2Proof.Machine
end

