-- ==== Sys2Proof/Laws/Ops.lean ====
section
/-! SUPPORT. One lemma per shared operation, saying once everything it does: indices, checks, writes, completion, issue. -/

namespace Sys2Proof.Machine

/-! ### Halves and fields as numbers -/

theorem toNat_lowHalf (w : Word) : (lowHalf w).toNat = w.toNat % 65536 := by
  simp [lowHalf]

theorem toNat_highHalf (w : Word) : (highHalf w).toNat = w.toNat / 65536 := by
  have := w.isLt
  simp only [highHalf, BitVec.extractLsb'_toNat, Nat.shiftRight_eq_div_pow]
  omega

theorem highHalf_eq_zero_iff (w : Word) : highHalf w = 0 ↔ w.toNat < 65536 := by
  have := w.isLt
  rw [← BitVec.toNat_inj, toNat_highHalf]; simp

theorem lowHalf_eq_zero_iff (w : Word) : lowHalf w = 0 ↔ w.toNat % 65536 = 0 := by
  rw [← BitVec.toNat_inj, toNat_lowHalf]; simp

theorem toNat_zext32 (h : Half) : (zext32 h).toNat = h.toNat := by
  have := h.isLt
  simp only [zext32, BitVec.toNat_setWidth]
  omega

@[simp] theorem lowHalf_zext32 (h : Half) : lowHalf (zext32 h) = h := by
  have := h.isLt
  rw [← BitVec.toNat_inj, toNat_lowHalf, toNat_zext32]; omega

@[simp] theorem highHalf_zext32 (h : Half) : highHalf (zext32 h) = 0 := by
  rw [highHalf_eq_zero_iff, toNat_zext32]; exact h.isLt

theorem toInt_sext32 (h : Half) : (sext32 h).toInt = h.toInt := by
  simp [sext32, BitVec.toInt_signExtend_of_le]

/-- A field of a word that starts at bit `i` is empty or holds a 1, in numbers. -/
theorem extract_eq_zero_iff (w : Word) (i len : Nat) : w.extractLsb' i len = 0 ↔ w.toNat / 2 ^ i % 2 ^ len = 0 := by
  rw [← BitVec.toNat_inj]; simp [BitVec.extractLsb'_toNat, Nat.shiftRight_eq_div_pow]

/-! ### Register indices -/

/-- The nine assigned indices name the nine registers, in order. -/
theorem regOf_cases (idx : BitVec 8) :
    (idx = 0x00 ∧ regOf idx = some .iqN) ∨ (idx = 0x01 ∧ regOf idx = some .audN) ∨
    (idx = 0x02 ∧ regOf idx = some .audGain) ∨ (idx = 0x03 ∧ regOf idx = some .mode) ∨
    (idx = 0x04 ∧ regOf idx = some .fmPrevRe) ∨ (idx = 0x05 ∧ regOf idx = some .fmPrevIm) ∨
    (idx = 0x06 ∧ regOf idx = some .audAcc) ∨ (idx = 0x07 ∧ regOf idx = some .audCnt) ∨
    (idx = 0x08 ∧ regOf idx = some .status) ∨ (8 < idx.toNat ∧ regOf idx = none) := by
  revert idx; decide

theorem regOf_isSome_iff (idx : BitVec 8) : (regOf idx).isSome = true ↔ idx.toNat ≤ 8 := by
  revert idx; decide

@[simp] theorem regOf_regIndex (r : Reg) : regOf (regIndex r) = some r := by cases r <;> rfl

/-! ### Legality and the payload bound -/

/-- `legal` of R94 in numbers. -/
theorem legalWrite_eq_legalNumber (s : State) (idx : BitVec 8) (r : Reg) (v : Word) (h : regOf idx = some r) :
    s.legalWrite r v = legalNumber (s.audN.toNat % 65536) idx.toNat v.toNat := by
  have hv := v.isLt
  have hn : s.nAud.toNat = s.audN.toNat % 65536 := toNat_lowHalf _
  have h65 : s.audN.toNat % 65536 < 65536 := Nat.mod_lt _ (by norm_num)
  rcases regOf_cases idx with ⟨rfl, h'⟩ | ⟨rfl, h'⟩ | ⟨rfl, h'⟩ | ⟨rfl, h'⟩ | ⟨rfl, h'⟩ | ⟨rfl, h'⟩ | ⟨rfl, h'⟩ |
      ⟨rfl, h'⟩ | ⟨rfl, h'⟩ | ⟨-, h'⟩ <;> rw [h'] at h <;> cases h <;> rw [Bool.eq_iff_iff]
  · simp only [State.legalWrite, legalNumber, Bool.and_eq_true, beq_iff_eq, bne_iff_ne, Ne, highHalf_eq_zero_iff,
      lowHalf_eq_zero_iff]
    simp; omega
  · simp only [State.legalWrite, legalNumber, Bool.and_eq_true, beq_iff_eq, bne_iff_ne, Ne, highHalf_eq_zero_iff,
      lowHalf_eq_zero_iff]
    simp; omega
  · simp [State.legalWrite, legalNumber]
  · simp only [State.legalWrite, legalNumber, beq_iff_eq, extract_eq_zero_iff]
    simp; omega
  · simp [State.legalWrite, legalNumber]
  · simp [State.legalWrite, legalNumber]
  · simp [State.legalWrite, legalNumber]
  · simp only [State.legalWrite, legalNumber, Bool.and_eq_true, beq_iff_eq, highHalf_eq_zero_iff, toNat_lowHalf, hn,
      decide_eq_true_eq]
    simp; omega
  · simp only [State.legalWrite, legalNumber, Bool.and_eq_true, beq_iff_eq, extract_eq_zero_iff]
    simp; omega

/-- A payload is too long exactly when `max_payload` is a number below its length (R30). -/
theorem tooLong_eq_any (s : State) (len : Nat) : s.tooLong len = s.maxPayload.any fun most => decide (most < len) := by
  unfold State.tooLong
  cases s.maxPayload with
  | none => simp
  | some m =>
    by_cases h : len = 0
    · subst h; simp
    · simp [h]

@[simp] theorem tooLong_zero (s : State) : s.tooLong 0 = false := rfl

/-- A shorter payload fits where a longer one does. -/
theorem fits_mono {s : State} {m n : Nat} (h : s.fits n) (hmn : m ≤ n) : s.fits m := by
  rw [State.fits, tooLong_eq_any] at *
  cases hm : s.maxPayload with
  | none => simp
  | some k => simp [hm] at h ⊢; omega

/-! ### STATUS -/

theorem recordCode_ok (status : Word) : recordCode .ok status = status &&& 0xFFFFFF00#32 := by
  simp [recordCode, codeByte]

/-- LAST_CODE after a completion is the code (R104). -/
@[simp] theorem lastCode_recordCode (c : ResultCode) (status : Word) : lastCode (recordCode c status) = codeByte c := by
  cases c <;> simp [lastCode, recordCode, codeByte, BitVec.extractLsb'_or, BitVec.extractLsb'_and]

/-- ERR_STICKY after a completion: set by a code other than OK, else kept (R104). -/
@[simp] theorem errSticky_recordCode (c : ResultCode) (status : Word) :
    errSticky (recordCode c status) = (decide (c ≠ .ok) || errSticky status) := by
  cases c <;> simp [errSticky, recordCode, codeByte]

/-- The bits of STATUS above the two fields are not written (R104). -/
@[simp] theorem upper_recordCode (c : ResultCode) (status : Word) :
    (recordCode c status).extractLsb' 9 23 = status.extractLsb' 9 23 := by
  cases c <;> simp [recordCode, codeByte, BitVec.extractLsb'_or, BitVec.extractLsb'_and] <;>
    exact BitVec.and_allOnes

@[simp] theorem errSticky_clearSticky (status : Word) : errSticky (clearSticky status) = false := by
  simp [errSticky, clearSticky]

@[simp] theorem upper_clearSticky (status : Word) :
    (clearSticky status).extractLsb' 9 23 = status.extractLsb' 9 23 := by
  simp [clearSticky, BitVec.extractLsb'_and]
  exact BitVec.and_allOnes

/-- Recording OK twice is recording it once. -/
@[simp] theorem recordCode_ok_ok (status : Word) : recordCode .ok (recordCode .ok status) = recordCode .ok status := by
  simp [recordCode_ok, BitVec.and_assoc]

theorem codeByte_toNat_le (c : ResultCode) : (codeByte c).toNat ≤ 5 := by cases c <;> decide

theorem codeByte_injective {c d : ResultCode} (h : codeByte c = codeByte d) : c = d := by
  revert h; cases c <;> cases d <;> decide

@[simp] theorem codeByte_eq_zero_iff (c : ResultCode) : codeByte c = 0 ↔ c = .ok := by cases c <;> decide

/-! ### Issue: the outcome of every meaning -/

/-- A command whose checks pass runs its effect and completes with OK. -/
theorem issue_ok {s : State} {i : Instr} (h : s.check i = .ok) (run : State → State × List Word) :
    s.issue i run = .next ((run s).1.complete .ok (run s).2) := by
  simp [State.issue, h]

/-- A command whose checks fail is rejected with the failing check's code. -/
theorem issue_rejected {s : State} {i : Instr} {c : ResultCode} (h : s.check i = c) (hc : c ≠ .ok)
    (run : State → State × List Word) : s.issue i run = .next (s.reject c) := by
  subst h
  unfold State.issue
  split
  · contradiction
  · rfl

/-- Everything `issue` can do: one of the two, and never a fault or a refusal. -/
theorem issue_cases (s : State) (i : Instr) (run : State → State × List Word) :
    (s.check i = .ok ∧ s.issue i run = .next ((run s).1.complete .ok (run s).2)) ∨
    (s.check i ≠ .ok ∧ s.issue i run = .next (s.reject (s.check i))) := by
  by_cases h : s.check i = .ok
  · exact Or.inl ⟨h, issue_ok h run⟩
  · exact Or.inr ⟨h, issue_rejected rfl h run⟩

/-- The checks of R101 that remain after decoding, one by one. -/
theorem check_cases (s : State) (i : Instr) :
    (regAssigned i = false ∧ s.check i = .badReg) ∨
    (regAssigned i = true ∧ (s.tooLong s.payload.length = true ∨ lengthTaken i s.payload.length = false) ∧
      s.check i = .badLength) ∨
    (regAssigned i = true ∧ s.fits s.payload.length ∧ lengthTaken i s.payload.length = true ∧
      s.dataLegal i = false ∧ s.check i = .badValue) ∨
    (regAssigned i = true ∧ s.fits s.payload.length ∧ lengthTaken i s.payload.length = true ∧
      s.dataLegal i = true ∧ s.check i = .ok) := by
  unfold State.check
  cases regAssigned i <;> cases h2 : s.tooLong s.payload.length <;> cases h3 : lengthTaken i s.payload.length <;>
    cases h4 : s.dataLegal i <;> simp [State.fits, h2]

/-- When a command's checks pass. -/
theorem check_ok {s : State} {i : Instr} (h1 : regAssigned i = true) (h2 : s.fits s.payload.length)
    (h3 : lengthTaken i s.payload.length = true) (h4 : s.dataLegal i = true) : s.check i = .ok := by
  rw [State.fits] at h2
  simp [State.check, h1, h2, h3, h4]

/-- Checks read the payload, AUD_N and `max_payload` only. -/
theorem check_congr {s t : State} (i : Instr) (hp : s.payload = t.payload) (hn : s.audN = t.audN)
    (hm : s.maxPayload = t.maxPayload) : s.check i = t.check i := by
  have h1 : ∀ len, s.tooLong len = t.tooLong len := fun len => by simp [State.tooLong, hm]
  have h2 : ∀ r v, s.legalWrite r v = t.legalWrite r v := fun r v => by
    have hN : s.nAud = t.nAud := by rw [State.nAud, State.nAud, hn]
    cases r <;> simp only [State.legalWrite, hN]
  have h3 : s.dataLegal i = t.dataLegal i := by
    cases i <;> simp [State.dataLegal, hp, h2]
  simp [State.check, hp, h1, h3]

end Sys2Proof.Machine
end

