-- ==== Sys2Proof/Laws/Exec.lean ====
section
/-! SUPPORT. What each meaning and each step does when it runs: one equation per instruction, and the cases of a step. -/

namespace Sys2Proof.Machine

/-! ### The meanings, once their checks pass -/

theorem execNop_eq {s : State} (h : s.payload = []) : exec .nop s = .next (s.complete .ok []) := by
  have hc : s.check .nop = .ok := check_ok rfl (by simp [State.fits, h]) (by simp [lengthTaken, h]) rfl
  rw [exec, execNop, issue_ok hc]

theorem execRstst_eq {s : State} (h : s.payload = []) : exec .rstst s = .next (s.newStream.complete .ok []) := by
  have hc : s.check .rstst = .ok := check_ok rfl (by simp [State.fits, h]) (by simp [lengthTaken, h]) rfl
  rw [exec, execRstst, issue_ok hc]

theorem execRdreg_eq {s : State} {idx : BitVec 8} {r : Reg} (hr : regOf idx = some r) (h : s.payload = []) :
    exec (.rdreg idx) s = .next (s.complete .ok [s.readValue r]) := by
  have hc : s.check (.rdreg idx) = .ok :=
    check_ok (by simp [regAssigned, hr]) (by simp [State.fits, h]) (by simp [lengthTaken, h]) rfl
  rw [exec, execRdreg, issue_ok hc]
  simp [hr]

theorem execWrreg_eq {s : State} {idx : BitVec 8} {r : Reg} {v : Word} (hr : regOf idx = some r) (h : s.payload = [v])
    (hf : s.fits 1) (hl : s.legalWrite r v = true) :
    exec (.wrreg idx) s = .next ((s.writeReg r v).complete .ok []) := by
  have hc : s.check (.wrreg idx) = .ok :=
    check_ok (by simp [regAssigned, hr]) (by simpa [h] using hf) (by simp [lengthTaken, h])
      (by simp [State.dataLegal, hr, h, hl])
  rw [exec, execWrreg, issue_ok hc]
  simp [hr, h]

theorem execIqdec_eq {s : State} (hf : s.fits s.payload.length) :
    exec .iqdec s = .next (s.complete .ok (sampleWords (iqBlock s.nIq s.payload))) := by
  have hc : s.check .iqdec = .ok := check_ok rfl hf rfl rfl
  rw [exec, execIqdec, issue_ok hc]

theorem execFmdem_eq {s : State} (hf : s.fits s.payload.length) (he : s.payload.length % 2 = 0) :
    exec .fmdem s = .next ({ s with
      fmPrevRe := (runSteps fmStep (s.fmPrevRe, s.fmPrevIm) (complexSamples s.payload)).1.1,
      fmPrevIm := (runSteps fmStep (s.fmPrevRe, s.fmPrevIm) (complexSamples s.payload)).1.2 }.complete .ok
        (runSteps fmStep (s.fmPrevRe, s.fmPrevIm) (complexSamples s.payload)).2) := by
  have hc : s.check .fmdem = .ok := check_ok rfl hf (by simp [lengthTaken, he]) rfl
  rw [exec, execFmdem, issue_ok hc]

theorem execAmdem_eq {s : State} (hf : s.fits s.payload.length) (he : s.payload.length % 2 = 0) :
    exec .amdem s = .next (s.complete .ok ((complexSamples s.payload).map amSample)) := by
  have hc : s.check .amdem = .ok := check_ok rfl hf (by simp [lengthTaken, he]) rfl
  rw [exec, execAmdem, issue_ok hc]

theorem execAuddec_eq {s : State} (hf : s.fits s.payload.length) :
    exec .auddec s = .next
      ((s.setWindow (runSteps (audStep s.nAud (audScale s.audGain s.nAud)) s.window s.payload).1).complete .ok
        (runSteps (audStep s.nAud (audScale s.audGain s.nAud)) s.window s.payload).2) := by
  have hc : s.check .auddec = .ok := check_ok rfl hf rfl rfl
  rw [exec, execAuddec, issue_ok hc]

theorem execPipe_eq {s : State} (hf : s.fits s.payload.length) :
    exec .pipe s = .next
      ((s.writePipe s.pipeConfig (runSteps (pipeStep s.pipeConfig) s.pipeRegs s.payload).1).complete .ok
        (runSteps (pipeStep s.pipeConfig) s.pipeRegs s.payload).2) := by
  have hc : s.check .pipe = .ok := check_ok rfl hf rfl rfl
  rw [exec, execPipe, issue_ok hc]

/-! ### All meanings together -/

/-- What the effect of an instruction may be, for each instruction: the `run` its meaning hands to `issue`. -/
theorem exec_eq_issue (i : Instr) (s : State) : ∃ run, exec i s = s.issue i run := by
  cases i with
  | nop => exact ⟨_, by rw [exec, execNop]⟩
  | iqdec => exact ⟨_, by rw [exec, execIqdec]⟩
  | fmdem => exact ⟨_, by rw [exec, execFmdem]⟩
  | amdem => exact ⟨_, by rw [exec, execAmdem]⟩
  | auddec => exact ⟨_, by rw [exec, execAuddec]⟩
  | pipe => exact ⟨_, by rw [exec, execPipe]⟩
  | rdreg idx => exact ⟨_, by rw [exec, execRdreg]⟩
  | wrreg idx => exact ⟨_, by rw [exec, execWrreg]⟩
  | rstst => exact ⟨_, by rw [exec, execRstst]⟩

/-- A meaning answers a next state: it completed with OK, or it was rejected with its failing check's code. -/
theorem exec_cases (i : Instr) (s : State) :
    (s.check i = .ok ∧ ∃ (t : State) (out : List Word), exec i s = .next (t.complete .ok out)) ∨
    (s.check i ≠ .ok ∧ exec i s = .next (s.reject (s.check i))) := by
  obtain ⟨run, h⟩ := exec_eq_issue i s
  rcases issue_cases s i run with ⟨hc, h'⟩ | ⟨hc, h'⟩
  · exact Or.inl ⟨hc, _, _, h.trans h'⟩
  · exact Or.inr ⟨hc, h.trans h'⟩

/-- A rejected instruction, by its failing check. -/
theorem exec_rejected {i : Instr} {s : State} {c : ResultCode} (h : s.check i = c) (hc : c ≠ .ok) :
    exec i s = .next (s.reject c) := by
  obtain ⟨run, hr⟩ := exec_eq_issue i s
  rw [hr, issue_rejected h hc]

/-! ### The step -/

/-- What a step can do, whole: idle, a reset, a decoded command, or a rejected word. -/
theorem step_cases (s t : State) (h : step s = .next t) :
    (s.host = [] ∧ t = s) ∨
    (∃ rest, s.host = .reset :: rest ∧ t = { s with host := rest }.assertReset) ∨
    (∃ c rest i, s.host = .command c :: rest ∧ decode c.word = .ok i ∧
      exec i ({ s with host := rest }.present c) = .next t) ∨
    (∃ c rest code, s.host = .command c :: rest ∧ decode c.word = .error code ∧
      t = ({ s with host := rest }.present c).reject code) := by
  unfold step at h
  split at h
  · next hh => exact Or.inl ⟨hh, by cases h; rfl⟩
  · next rest hh => exact Or.inr (Or.inl ⟨rest, hh, by cases h; rfl⟩)
  · next c rest hh =>
    split at h
    · next i hd => exact Or.inr (Or.inr (Or.inl ⟨c, rest, i, hh, hd, h⟩))
    · next code hd => exact Or.inr (Or.inr (Or.inr ⟨c, rest, code, hh, hd, by cases h; rfl⟩))

theorem step_reset {s : State} {rest : List HostMove} (h : s.host = .reset :: rest) :
    step s = .next { s with host := rest }.assertReset := by
  simp [step, h]

theorem step_decoded {s : State} {c : Command} {rest : List HostMove} {i : Instr} (h : s.host = .command c :: rest)
    (hd : decode c.word = .ok i) : step s = exec i ({ s with host := rest }.present c) := by
  simp [step, h, hd]

theorem step_undecoded {s : State} {c : Command} {rest : List HostMove} {code : ResultCode}
    (h : s.host = .command c :: rest) (hd : decode c.word = .error code) :
    step s = .next (({ s with host := rest }.present c).reject code) := by
  simp [step, h, hd]

/-- A word rejected by its bits is rejected with one of two codes. -/
theorem decode_error {w : Word} {code : ResultCode} (h : decode w = .error code) :
    code = .illegalOp ∨ code = .rsvdBits := by
  unfold decode at h
  split at h
  · cases h; simp
  · split at h
    · cases h; simp
    · split at h <;> cases h; simp

end Sys2Proof.Machine
end

