-- ==== Sys2Proof/Laws/Float.lean ====
section
/-! SUPPORT. Binary32: the fields of a word, the spacing of the values, and the correctness of rounding. Later proofs cite
`roundsTo_roundMag` and `roundsTo_sqrt` and never unfold `roundMag`. -/

namespace Sys2Proof.Machine

theorem f32Mag_eq (w : Word) : f32Mag w = w.toNat % 2 ^ 31 := by
  simp [f32Mag]

theorem f32Exponent_eq (w : Word) : f32Exponent w = f32Mag w / 2 ^ 23 := by
  have h := w.isLt
  simp only [f32Exponent, f32Mag, BitVec.extractLsb'_toNat, Nat.shiftRight_eq_div_pow]
  omega

theorem f32Fraction_eq (w : Word) : f32Fraction w = f32Mag w % 2 ^ 23 := by
  simp only [f32Fraction, f32Mag, BitVec.extractLsb'_toNat, Nat.shiftRight_eq_div_pow]
  omega

theorem f32Mag_lt (w : Word) : f32Mag w < 2 ^ 31 := by
  rw [f32Mag_eq]; exact Nat.mod_lt _ (by norm_num)

theorem f32Sign_eq (w : Word) : f32Sign w = decide (2 ^ 31 ≤ w.toNat) := by
  have h := w.isLt
  rw [f32Sign, BitVec.getLsbD, Nat.testBit_eq_decide_div_mod_eq]
  congr 1
  simp only [eq_iff_iff]
  omega

theorem toNat_pack {m : Nat} (s : Bool) (h : m < 2 ^ 31) :
    (pack s m).toNat = m + if s then 2 ^ 31 else 0 := by
  simp only [pack, BitVec.toNat_ofNat]
  apply Nat.mod_eq_of_lt
  split <;> omega

@[simp] theorem f32Mag_pack {m : Nat} (s : Bool) (h : m < 2 ^ 31) : f32Mag (pack s m) = m := by
  rw [f32Mag_eq, toNat_pack s h]; split <;> omega

@[simp] theorem f32Sign_pack {m : Nat} (s : Bool) (h : m < 2 ^ 31) : f32Sign (pack s m) = s := by
  rw [f32Sign_eq, toNat_pack s h]
  cases s <;> simp; omega

theorem pack_sign_mag (w : Word) : pack (f32Sign w) (f32Mag w) = w := by
  apply BitVec.eq_of_toNat_eq
  have h := w.isLt
  rw [toNat_pack _ (f32Mag_lt w), f32Sign_eq, f32Mag_eq]
  simp only [decide_eq_true_eq]
  split <;> omega

theorem isNaN_iff (w : Word) : isNaN w = true ↔ 0x7F800000 < f32Mag w := by
  have := f32Mag_lt w
  simp only [isNaN, f32Exponent_eq, f32Fraction_eq, Bool.and_eq_true, beq_iff_eq, bne_iff_ne]
  omega

theorem isInf_iff (w : Word) : isInf w = true ↔ f32Mag w = 0x7F800000 := by
  have := f32Mag_lt w
  simp only [isInf, f32Exponent_eq, f32Fraction_eq, Bool.and_eq_true, beq_iff_eq]
  omega

theorem isZero_iff (w : Word) : isZero w = true ↔ f32Mag w = 0 := by
  have := f32Mag_lt w
  simp only [isZero, f32Exponent_eq, f32Fraction_eq, Bool.and_eq_true, beq_iff_eq]
  omega

theorem isFinite_iff (w : Word) : isFinite w = true ↔ f32Mag w < 0x7F800000 := by
  have := f32Mag_lt w
  simp only [isFinite, f32Exponent_eq, bne_iff_ne]
  omega

/-- The units of a magnitude `w[30:0]`. -/
def magUnits (m : Nat) : Nat := if m / 2 ^ 23 = 0 then m % 2 ^ 23 else (2 ^ 23 + m % 2 ^ 23) * 2 ^ (m / 2 ^ 23 - 1)

theorem units_eq (w : Word) : units w = magUnits (f32Mag w) := by
  simp only [units, magUnits, f32Exponent_eq, f32Fraction_eq]

theorem magUnits_binade (e q : Nat) (h : q < 2 ^ 24) (hq : e = 0 ∨ 2 ^ 23 ≤ q) : magUnits (e * 2 ^ 23 + q) = q * 2 ^ e := by
  unfold magUnits
  by_cases hs : q < 2 ^ 23
  · obtain rfl : e = 0 := by omega
    rw [if_pos (by omega)]; omega
  · have h1 : (e * 2 ^ 23 + q) / 2 ^ 23 = e + 1 := by omega
    have h2 : (e * 2 ^ 23 + q) % 2 ^ 23 = q - 2 ^ 23 := by omega
    rw [h1, h2, if_neg (by omega), Nat.add_sub_cancel, Nat.add_sub_cancel' (Nat.le_of_not_lt hs)]

theorem magUnits_binade_top (e : Nat) : magUnits (e * 2 ^ 23 + 2 ^ 24) = 2 ^ 24 * 2 ^ e := by
  have := magUnits_binade (e + 1) (2 ^ 23) (by norm_num) (by omega)
  rw [show e * 2 ^ 23 + 2 ^ 24 = (e + 1) * 2 ^ 23 + 2 ^ 23 by ring, this, pow_succ]; ring

theorem magUnits_succ (m : Nat) : magUnits m < magUnits (m + 1) := by
  obtain ⟨e, q, rfl, hq, h⟩ : ∃ e q, m = e * 2 ^ 23 + q ∧ q < 2 ^ 24 ∧ (e = 0 ∨ 2 ^ 23 ≤ q) := by
    by_cases h : m < 2 ^ 23
    · exact ⟨0, m, by omega, by omega, by omega⟩
    · exact ⟨m / 2 ^ 23 - 1, m - (m / 2 ^ 23 - 1) * 2 ^ 23, by omega, by omega, by omega⟩
  rw [magUnits_binade e q hq h]
  have hp : 0 < 2 ^ e := by positivity
  by_cases c : q + 1 < 2 ^ 24
  · rw [show e * 2 ^ 23 + q + 1 = e * 2 ^ 23 + (q + 1) by ring, magUnits_binade e (q + 1) c (by omega)]
    exact Nat.mul_lt_mul_of_pos_right (by omega) hp
  · rw [show e * 2 ^ 23 + q + 1 = e * 2 ^ 23 + 2 ^ 24 by omega, magUnits_binade_top]
    exact (Nat.mul_lt_mul_right hp).2 hq

theorem magUnits_strictMono : StrictMono magUnits := strictMono_nat_of_lt_succ magUnits_succ


theorem isFinite_mag {w : Word} (h : isFinite w = true) : f32Mag w < 255 * 2 ^ 23 := by
  have := (isFinite_iff w).1 h; omega

/-- A finite value is its sign times its units. -/
theorem f32Value_eq (w : Word) : f32Value w = (if f32Sign w then -1 else 1) * (units w : ℚ) / 2 ^ 149 := by
  unfold f32Value signedUnits
  split <;> push_cast <;> ring

/-- A finite value's units lie at or below the start of a binade step, or at or above its end. -/
theorem units_outside_step (v : Word) (e q : Nat) (hq : q < 2 ^ 24) (he : e = 0 ∨ 2 ^ 23 ≤ q) :
    units v ≤ q * 2 ^ e ∨ (q + 1) * 2 ^ e ≤ units v := by
  rw [units_eq, ← magUnits_binade e q hq he]
  have hnext : magUnits (e * 2 ^ 23 + q + 1) = (q + 1) * 2 ^ e := by
    by_cases c : q + 1 < 2 ^ 24
    · rw [show e * 2 ^ 23 + q + 1 = e * 2 ^ 23 + (q + 1) by ring, magUnits_binade e (q + 1) c (by omega)]
    · obtain hc : q + 1 = 2 ^ 24 := by omega
      rw [hc, show e * 2 ^ 23 + q + 1 = e * 2 ^ 23 + 2 ^ 24 by omega, magUnits_binade_top]
  rw [← hnext, magUnits_strictMono.le_iff_le, magUnits_strictMono.le_iff_le]
  omega

/-- The core of correct rounding, in units: `X` lies in `[q, q+1) * 2^e`, a binade step, and `r` is the end chosen. -/
theorem roundsTo_core (X : ℝ) (s : Bool) (e q r : Nat)
    (hq : q < 2 ^ 24) (he : e = 0 ∨ 2 ^ 23 ≤ q)
    (lo : (q : ℝ) * 2 ^ e ≤ X) (hi : X < ((q : ℝ) + 1) * 2 ^ e)
    (hr : (r = q ∧ (2 * (X - q * 2 ^ e) < 2 ^ e ∨ (2 * (X - q * 2 ^ e) = 2 ^ e ∧ q % 2 = 0))) ∨
          (r = q + 1 ∧ (2 ^ e < 2 * (X - q * 2 ^ e) ∨ (2 * (X - q * 2 ^ e) = 2 ^ e ∧ q % 2 = 1)))) :
    RoundsTo ((if s then -1 else 1) * X / 2 ^ 149) (pack s (min (e * 2 ^ 23 + r) 0x7F800000)) := by
  have hp : (0 : ℝ) < 2 ^ e := by positivity
  have hX0 : 0 ≤ X := le_trans (by positivity) lo
  have habs : |(if s then (-1 : ℝ) else 1) * X / 2 ^ 149| = X / 2 ^ 149 := by
    rw [abs_div, abs_mul, abs_of_nonneg hX0, abs_of_pos (by positivity : (0:ℝ) < 2 ^ 149)]
    cases s <;> simp
  have hbound : ((overflowBound : ℚ) : ℝ) ≤ X / 2 ^ 149 ↔ ((2:ℝ) ^ 24 - 1 / 2) * 2 ^ 253 ≤ X := by
    rw [le_div_iff₀ (by positivity)]
    have : ((overflowBound : ℚ) : ℝ) * 2 ^ 149 = ((2:ℝ) ^ 24 - 1 / 2) * 2 ^ 253 := by
      simp only [overflowBound]; push_cast; norm_num
    rw [this]
  have h252 : e ≤ 252 → X < ((2:ℝ) ^ 24 - 1 / 2) * 2 ^ 253 := by
    intro h
    have h1 : ((q : ℝ) + 1) ≤ 2 ^ 24 := by exact_mod_cast hq
    have h2 : (2:ℝ) ^ e ≤ 2 ^ 252 := pow_le_pow_right₀ (by norm_num) h
    calc X < ((q : ℝ) + 1) * 2 ^ e := hi
      _ ≤ 2 ^ 24 * 2 ^ 252 := by gcongr
      _ < _ := by norm_num
  unfold RoundsTo
  rw [habs]
  by_cases hov : e * 2 ^ 23 + r < 255 * 2 ^ 23
  · have hlt : X < ((2:ℝ) ^ 24 - 1 / 2) * 2 ^ 253 := by
      by_cases h : e ≤ 252
      · exact h252 h
      · obtain rfl : e = 253 := by omega
        have hr24 : r < 2 ^ 24 := by omega
        have hr' : (r : ℝ) ≤ 2 ^ 24 - 1 := by
          have : (r : ℝ) + 1 ≤ 2 ^ 24 := by exact_mod_cast hr24
          linarith
        rcases hr with ⟨rfl, h | ⟨h, h0⟩⟩ | ⟨rfl, -⟩
        · nlinarith
        · have hr2 : (r : ℝ) ≤ 2 ^ 24 - 2 := by
            have : r + 2 ≤ 2 ^ 24 := by omega
            have : (r : ℝ) + 2 ≤ 2 ^ 24 := by exact_mod_cast this
            linarith
          nlinarith
        · push_cast at hr'
          nlinarith
    rw [if_neg (by rw [hbound]; linarith)]
    have hmin : min (e * 2 ^ 23 + r) 0x7F800000 = e * 2 ^ 23 + r := by omega
    rw [hmin]
    have hm31 : e * 2 ^ 23 + r < 2 ^ 31 := by omega
    refine ⟨by rw [isFinite_iff, f32Mag_pack _ hm31]; omega, ?_⟩
    have hu : units (pack s (e * 2 ^ 23 + r)) = r * 2 ^ e := by
      rw [units_eq, f32Mag_pack _ hm31]
      by_cases c : r < 2 ^ 24
      · exact magUnits_binade e r c (by omega)
      · obtain rfl : r = 2 ^ 24 := by omega
        exact magUnits_binade_top e
    have hw : ((f32Value (pack s (e * 2 ^ 23 + r)) : ℚ) : ℝ) = (if s then -1 else 1) * ((r : ℝ) * 2 ^ e) / 2 ^ 149 := by
      rw [f32Value_eq, f32Sign_pack _ hm31, hu]
      cases s <;> push_cast <;> simp
    have hfrac : f32Fraction (pack s (e * 2 ^ 23 + r)) % 2 = r % 2 := by
      rw [f32Fraction_eq, f32Mag_pack _ hm31]; omega
    intro v hv
    obtain ⟨K, hK, hKo⟩ : ∃ K : ℝ, ((f32Value v : ℚ) : ℝ) = (if s then -1 else 1) * K / 2 ^ 149 ∧
        (K ≤ q * 2 ^ e ∨ ((q : ℝ) + 1) * 2 ^ e ≤ K) := by
      have hk : (units v : ℝ) ≤ q * 2 ^ e ∨ ((q : ℝ) + 1) * 2 ^ e ≤ units v := by
        rcases units_outside_step v e q hq he with h | h
        · left; exact_mod_cast h
        · right; exact_mod_cast h
      have hk0 : (0 : ℝ) ≤ units v := by positivity
      have hq0 : (0 : ℝ) ≤ q * 2 ^ e := by positivity
      rw [f32Value_eq]
      by_cases c : f32Sign v = s
      · exact ⟨units v, by rw [c]; cases s <;> push_cast <;> simp, hk⟩
      · refine ⟨-units v, ?_, Or.inl (by linarith)⟩
        cases s <;> simp at c <;> simp [c]
    have hdist : ∀ K : ℝ, |(if s then (-1:ℝ) else 1) * K / 2 ^ 149 - (if s then (-1:ℝ) else 1) * X / 2 ^ 149|
        = |K - X| / 2 ^ 149 := by
      intro K
      rw [← sub_div, ← mul_sub, abs_div, abs_mul, abs_of_pos (by positivity : (0:ℝ) < 2 ^ 149)]
      cases s <;> simp
    rw [hw, hK, hdist, hdist]
    have h149 : (0 : ℝ) < 2 ^ 149 := by positivity
    have key : |(r : ℝ) * 2 ^ e - X| ≤ |K - X| ∧ (|(r : ℝ) * 2 ^ e - X| = |K - X| → K ≠ r * 2 ^ e → r % 2 = 0) := by
      rcases hr with ⟨rfl, h⟩ | ⟨rfl, h⟩
      · have h1 : |(r : ℝ) * 2 ^ e - X| = X - r * 2 ^ e := by rw [abs_sub_comm, abs_of_nonneg]; linarith
        rw [h1]
        rcases hKo with hKo | hKo
        · have h2 : |K - X| = X - K := by rw [abs_sub_comm, abs_of_nonneg]; linarith
          rw [h2]
          exact ⟨by linarith, fun h3 h4 => absurd (by linarith) h4⟩
        · have h2 : |K - X| = K - X := by rw [abs_of_nonneg]; linarith
          rw [h2]
          refine ⟨by rcases h with h | ⟨h, -⟩ <;> linarith, fun h3 h4 => ?_⟩
          rcases h with h | ⟨h, h5⟩
          · linarith
          · exact h5
      · have h1 : |((q + 1 : ℕ) : ℝ) * 2 ^ e - X| = (q + 1) * 2 ^ e - X := by
          push_cast; rw [abs_of_nonneg]; linarith
        rw [h1]
        rcases hKo with hKo | hKo
        · have h2 : |K - X| = X - K := by rw [abs_sub_comm, abs_of_nonneg]; linarith
          rw [h2]
          refine ⟨by rcases h with h | ⟨h, -⟩ <;> linarith, fun h3 h4 => ?_⟩
          rcases h with h | ⟨h, h5⟩
          · linarith
          · omega
        · have h2 : |K - X| = K - X := by rw [abs_of_nonneg]; linarith
          rw [h2]
          exact ⟨by linarith, fun h3 h4 => absurd (by push_cast; linarith) h4⟩
    refine ⟨div_le_div_of_nonneg_right key.1 h149.le, fun h1 h2 => ?_⟩
    rw [hfrac]
    apply key.2 (by rwa [div_left_inj' h149.ne'] at h1)
    intro h3
    apply h2
    have : ((f32Value v : ℚ) : ℝ) = ((f32Value (pack s (e * 2 ^ 23 + r)) : ℚ) : ℝ) := by rw [hw, hK, h3]
    exact_mod_cast this
  · have hge : ((2:ℝ) ^ 24 - 1 / 2) * 2 ^ 253 ≤ X := by
      by_cases h : e ≤ 253
      · obtain rfl : e = 253 := by omega
        obtain rfl : r = q + 1 := by omega
        have hq1 : q = 2 ^ 24 - 1 := by omega
        have hq2 : (q : ℝ) = 2 ^ 24 - 1 := by rw [hq1]; norm_num
        rcases hr with ⟨h1, -⟩ | ⟨-, h | ⟨h, -⟩⟩
        · omega
        · rw [hq2] at h; linarith
        · rw [hq2] at h; linarith
      · have h1 : (2:ℝ) ^ 23 ≤ q := by exact_mod_cast (by omega : 2 ^ 23 ≤ q)
        have h2 : (2:ℝ) ^ 254 ≤ 2 ^ e := pow_le_pow_right₀ (by norm_num) (by omega)
        have h3 : (2:ℝ) ^ 23 * 2 ^ 254 ≤ (q : ℝ) * 2 ^ e := by gcongr
        linarith
    rw [if_pos (hbound.2 hge)]
    have hmin : min (e * 2 ^ 23 + r) 0x7F800000 = 0x7F800000 := by omega
    rw [hmin, isInf_iff, f32Mag_pack _ (by norm_num), f32Sign_pack _ (by norm_num)]
    refine ⟨rfl, ?_⟩
    have hX : 0 < X := lt_of_lt_of_le (by norm_num) hge
    have h149 : (0 : ℝ) < 2 ^ 149 := by positivity
    cases s
    · simp only [Bool.false_eq_true, if_false, false_iff, not_lt]; positivity
    · simp only [if_true, true_iff]
      apply div_neg_of_neg_of_pos _ h149
      linarith


/-- The binade of a quotient: it is `q` steps of `2^e` units, with `q` a 24-bit significand. -/
theorem binade_spec (n d : Nat) :
    n / (d * 2 ^ binade n d) < 2 ^ 24 ∧ (binade n d = 0 ∨ 2 ^ 23 ≤ n / (d * 2 ^ binade n d)) := by
  rw [← Nat.div_div_eq_div_mul]
  unfold binade
  generalize n / d = a
  by_cases h : a < 2 ^ 24
  · have : Nat.log2 a - 23 = 0 := by
      by_cases h0 : a = 0
      · subst h0; simp
      · have := (Nat.log2_lt h0).2 h; omega
    rw [this]; simpa using h
  · have h0 : a ≠ 0 := by omega
    have h1 : 24 ≤ Nat.log2 a := (Nat.le_log2 h0).2 (by omega)
    have h2 : a < 2 ^ (Nat.log2 a + 1) := Nat.lt_log2_self
    have h3 : 2 ^ Nat.log2 a ≤ a := Nat.log2_self_le h0
    obtain ⟨k, hk⟩ : ∃ k, Nat.log2 a = k + 23 := ⟨_, (Nat.sub_add_cancel (by omega)).symm⟩
    rw [hk, Nat.add_sub_cancel]
    rw [hk] at h2 h3
    constructor
    · rw [Nat.div_lt_iff_lt_mul (by positivity), ← pow_add, show 24 + k = k + 23 + 1 by ring]; exact h2
    · right
      rw [Nat.le_div_iff_mul_le (by positivity), ← pow_add, show 23 + k = k + 23 by ring]; exact h3

/-- Rounding is correct for any real number that the quotient `n / d` stands for: the two lie in the same binade step and
on the same side of its middle. -/
theorem roundsTo_roundMag_of (X : ℝ) (s : Bool) (n d : Nat)
    (lo : ((n / (d * 2 ^ binade n d) : ℕ) : ℝ) * 2 ^ binade n d ≤ X)
    (hi : X < (((n / (d * 2 ^ binade n d) : ℕ) : ℝ) + 1) * 2 ^ binade n d)
    (hlt : 2 * (n % (d * 2 ^ binade n d)) < d * 2 ^ binade n d →
      2 * (X - ((n / (d * 2 ^ binade n d) : ℕ) : ℝ) * 2 ^ binade n d) < 2 ^ binade n d)
    (heq : 2 * (n % (d * 2 ^ binade n d)) = d * 2 ^ binade n d →
      2 * (X - ((n / (d * 2 ^ binade n d) : ℕ) : ℝ) * 2 ^ binade n d) = 2 ^ binade n d)
    (hgt : d * 2 ^ binade n d < 2 * (n % (d * 2 ^ binade n d)) →
      2 ^ binade n d < 2 * (X - ((n / (d * 2 ^ binade n d) : ℕ) : ℝ) * 2 ^ binade n d)) :
    RoundsTo ((if s then -1 else 1) * X / 2 ^ 149) (pack s (roundMag n d)) := by
  obtain ⟨hq, he⟩ := binade_spec n d
  unfold roundMag
  refine roundsTo_core X s (binade n d) _ _ hq he lo hi ?_
  unfold roundTiesToEven
  generalize n / (d * 2 ^ binade n d) = q at *
  generalize n % (d * 2 ^ binade n d) = m at *
  generalize d * 2 ^ binade n d = u at *
  rcases lt_trichotomy (2 * m) u with h | h | h
  · left
    exact ⟨if_neg (by omega), Or.inl (hlt h)⟩
  · rcases Nat.mod_two_eq_zero_or_one q with h2 | h2
    · left
      exact ⟨if_neg (by omega), Or.inr ⟨heq h, h2⟩⟩
    · right
      exact ⟨if_pos (by omega), Or.inr ⟨heq h, h2⟩⟩
  · right
    exact ⟨if_pos (by omega), Or.inl (hgt h)⟩

/-- `roundMag` rounds the quotient `n / d` units correctly (R2). -/
theorem roundsTo_roundMag (s : Bool) (n d : Nat) (hd : 0 < d) :
    RoundsTo ((if s then -1 else 1) * ((n : ℝ) / d) / 2 ^ 149) (pack s (roundMag n d)) := by
  set e := binade n d with hE
  have hdR : (0 : ℝ) < d := by exact_mod_cast hd
  have hu : (0 : ℝ) < (d : ℝ) * 2 ^ e := by positivity
  have hdiv : (n : ℝ) = (d : ℝ) * 2 ^ e * ((n / (d * 2 ^ e) : ℕ) : ℝ) + ((n % (d * 2 ^ e) : ℕ) : ℝ) := by
    exact_mod_cast (Nat.div_add_mod n (d * 2 ^ e)).symm
  have hX : (n : ℝ) / d - ((n / (d * 2 ^ e) : ℕ) : ℝ) * 2 ^ e = ((n % (d * 2 ^ e) : ℕ) : ℝ) / d := by
    rw [eq_div_iff hdR.ne', sub_mul, div_mul_cancel₀ _ hdR.ne']
    linarith
  have hm : ((n % (d * 2 ^ e) : ℕ) : ℝ) < (d : ℝ) * 2 ^ e := by
    exact_mod_cast Nat.mod_lt n (by positivity : 0 < d * 2 ^ e)
  have hm0 : (0 : ℝ) ≤ ((n % (d * 2 ^ e) : ℕ) : ℝ) / d := by positivity
  have hm1 : ((n % (d * 2 ^ e) : ℕ) : ℝ) / d < 2 ^ e := by rw [div_lt_iff₀ hdR]; linarith
  refine roundsTo_roundMag_of _ s n d ?_ ?_ ?_ ?_ ?_
  · linarith
  · rw [← hE]; linarith
  · intro h
    rw [← hE, hX, ← mul_div_assoc, div_lt_iff₀ hdR]
    have : (2 : ℝ) * ((n % (d * 2 ^ e) : ℕ) : ℝ) < d * 2 ^ e := by exact_mod_cast h
    linarith
  · intro h
    rw [← hE, hX, ← mul_div_assoc, div_eq_iff hdR.ne']
    have : (2 : ℝ) * ((n % (d * 2 ^ e) : ℕ) : ℝ) = d * 2 ^ e := by exact_mod_cast h
    linarith
  · intro h
    rw [← hE, hX, ← mul_div_assoc, lt_div_iff₀ hdR]
    have : (d : ℝ) * 2 ^ e < 2 * ((n % (d * 2 ^ e) : ℕ) : ℝ) := by exact_mod_cast h
    linarith

/-- `isqrt` is the integer square root. -/
theorem isqrt_spec (k n : Nat) (h : n < 2 ^ (2 * k)) : isqrt k n * isqrt k n ≤ n ∧ n < (isqrt k n + 1) * (isqrt k n + 1) := by
  induction k generalizing n with
  | zero => simp at h; subst h; simp [isqrt]
  | succ k ih =>
    have h4 : n / 4 < 2 ^ (2 * k) := by rw [show 2 * (k + 1) = 2 * k + 2 by ring, pow_add] at h; omega
    obtain ⟨h1, h2⟩ := ih (n / 4) h4
    have hn : 4 * (n / 4) ≤ n ∧ n < 4 * (n / 4) + 4 := by omega
    simp only [isqrt]
    generalize isqrt k (n / 4) = r at *
    split
    · next hc => exact ⟨hc, by nlinarith⟩
    · next hc => exact ⟨by nlinarith, by omega⟩

theorem two_pow_mul_le {a b c : Nat} (h : a + b ≤ c) : 2 ^ a * 2 ^ b ≤ 2 ^ c := by
  rw [← Nat.pow_add]; exact Nat.pow_le_pow_right (by omega) h

/-- The sticky half-unit root: twice the integer root of `x * 2^149`, plus one when that root is not exact. -/
theorem sqrtHalfUnits_spec (x : Nat) (h : x < 2 ^ 277) :
    ∃ r b, b < 2 ∧ sqrtHalfUnits x = 2 * r + b ∧ r * r ≤ x * 2 ^ 149 ∧ x * 2 ^ 149 < (r + 1) * (r + 1) ∧
      (b = 0 → r * r = x * 2 ^ 149) ∧ (b = 1 → r * r < x * 2 ^ 149) := by
  simp only [sqrtHalfUnits]
  obtain ⟨k, hk⟩ : ∃ k, 214 = k := ⟨_, rfl⟩
  rw [hk]
  have hlt : x * 2 ^ 149 < 2 ^ (2 * k) := by
    calc x * 2 ^ 149 < 2 ^ 277 * 2 ^ 149 := (Nat.mul_lt_mul_right (by positivity)).2 h
      _ ≤ 2 ^ (2 * k) := two_pow_mul_le (by omega)
  obtain ⟨r1, r2⟩ := isqrt_spec k _ hlt
  generalize isqrt k (x * 2 ^ 149) = r at *
  by_cases c : r * r = x * 2 ^ 149
  · exact ⟨r, 0, by omega, if_pos c, r1, r2, fun _ => c, fun h => by omega⟩
  · exact ⟨r, 1, by omega, if_neg c, r1, r2, fun h => by omega, fun _ => lt_of_le_of_ne r1 c⟩

/-- Rounding the sticky half-unit root rounds the exact root. -/
theorem roundsTo_sqrt (x : Nat) (h0 : 0 < x) (h : x < 2 ^ 277) :
    RoundsTo (Real.sqrt ((x : ℝ) / 2 ^ 149)) (pack false (roundMag (sqrtHalfUnits x) 2)) := by
  obtain ⟨r, b, hb, hnb, r1, r2, hb0, hb1⟩ := sqrtHalfUnits_spec x h
  generalize sqrtHalfUnits x = n at *
  obtain ⟨p, hp⟩ : ∃ p, p = 2 ^ 149 := ⟨_, rfl⟩
  have hpR : (2 : ℝ) ^ 149 = (p : ℝ) := by rw [hp]; norm_num
  have hp0 : (0 : ℝ) < (p : ℝ) := by rw [← hpR]; positivity
  rw [← hp] at r1 r2 hb0 hb1
  set X := Real.sqrt ((x * p : ℕ) : ℝ) with hXdef
  have hval : Real.sqrt ((x : ℝ) / 2 ^ 149) = (if false then -1 else 1) * X / 2 ^ 149 := by
    simp only [Bool.false_eq_true, if_false, one_mul]
    rw [hpR, hXdef, eq_div_iff hp0.ne', ← Real.sqrt_sq hp0.le, ← Real.sqrt_mul (by positivity)]
    congr 1
    push_cast
    rw [Real.sqrt_sq hp0.le]
    field_simp
  have hXr : (r : ℝ) ≤ X := Real.le_sqrt_of_sq_le (by rw [sq]; exact_mod_cast r1)
  have hXr1 : X < r + 1 := by
    rw [hXdef, Real.sqrt_lt' (by positivity), sq]
    exact_mod_cast r2
  replace hb0 : b = 0 → X = r := fun hc => by
    rw [hXdef, ← hb0 hc, Nat.cast_mul, Real.sqrt_mul_self (by positivity)]
  replace hb1 : b = 1 → (r : ℝ) < X := fun hc => by
    rw [hXdef]
    apply Real.lt_sqrt_of_sq_lt
    rw [sq]
    exact_mod_cast hb1 hc
  have hrbig : 2 ^ 74 ≤ r := by
    by_contra hc
    have h3 : (r + 1) * (r + 1) ≤ 2 ^ 74 * 2 ^ 74 := Nat.mul_le_mul (by omega) (by omega)
    have h4 : p ≤ x * p := Nat.le_mul_of_pos_left _ h0
    omega
  have hhalf : n / 2 = r := by omega
  obtain ⟨e, he⟩ : ∃ e, binade n 2 = e + 1 := by
    have : 74 ≤ Nat.log2 r := (Nat.le_log2 (by omega)).2 hrbig
    exact ⟨Nat.log2 r - 24, by rw [binade, hhalf]; omega⟩
  have hq : n / (2 * 2 ^ (e + 1)) = r / 2 ^ (e + 1) := by
    rw [← Nat.div_div_eq_div_mul, hhalf]
  have hm : n % (2 * 2 ^ (e + 1)) = 2 * (r % 2 ^ (e + 1)) + b := by
    have h5 := Nat.div_add_mod n (2 * 2 ^ (e + 1))
    have h6 := Nat.div_add_mod r (2 ^ (e + 1))
    rw [hq, mul_assoc] at h5
    omega
  have hdm : (r : ℝ) = 2 ^ (e + 1) * ((r / 2 ^ (e + 1) : ℕ) : ℝ) + ((r % 2 ^ (e + 1) : ℕ) : ℝ) := by
    exact_mod_cast (Nat.div_add_mod r (2 ^ (e + 1))).symm
  have hml : r % 2 ^ (e + 1) + 1 ≤ 2 ^ (e + 1) := Nat.mod_lt _ (by positivity)
  have hpow : 2 ^ (e + 1) = 2 * 2 ^ e := by rw [pow_succ]; ring
  rw [hval]
  refine roundsTo_roundMag_of X false _ 2 ?_ ?_ ?_ ?_ ?_ <;> rw [he, hq]
  · have : (0 : ℝ) ≤ ((r % 2 ^ (e + 1) : ℕ) : ℝ) := by positivity
    linarith
  · have : ((r % 2 ^ (e + 1) : ℕ) : ℝ) + 1 ≤ 2 ^ (e + 1) := by exact_mod_cast hml
    linarith
  · rw [hm]
    intro hc
    rcases (by omega : b = 0 ∨ b = 1) with rfl | rfl
    · have h7 : 2 * (r % 2 ^ (e + 1)) < 2 ^ (e + 1) := by omega
      have h8 : (2 : ℝ) * ((r % 2 ^ (e + 1) : ℕ) : ℝ) < 2 ^ (e + 1) := by exact_mod_cast h7
      have := hb0 rfl
      linarith
    · have h7 : 2 * (r % 2 ^ (e + 1)) + 2 ≤ 2 ^ (e + 1) := by omega
      have h8 : (2 : ℝ) * ((r % 2 ^ (e + 1) : ℕ) : ℝ) + 2 ≤ 2 ^ (e + 1) := by exact_mod_cast h7
      linarith
  · rw [hm]
    intro hc
    obtain rfl : b = 0 := by omega
    have h7 : 2 * (r % 2 ^ (e + 1)) = 2 ^ (e + 1) := by omega
    have h8 : (2 : ℝ) * ((r % 2 ^ (e + 1) : ℕ) : ℝ) = 2 ^ (e + 1) := by exact_mod_cast h7
    have := hb0 rfl
    linarith
  · rw [hm]
    intro hc
    rcases (by omega : b = 0 ∨ b = 1) with rfl | rfl
    · have h7 : 2 ^ (e + 1) < 2 * (r % 2 ^ (e + 1)) := by omega
      have h8 : (2 : ℝ) ^ (e + 1) < 2 * ((r % 2 ^ (e + 1) : ℕ) : ℝ) := by exact_mod_cast h7
      have := hb0 rfl
      linarith
    · have h7 : 2 ^ (e + 1) ≤ 2 * (r % 2 ^ (e + 1)) := by omega
      have h8 : (2 : ℝ) ^ (e + 1) ≤ 2 * ((r % 2 ^ (e + 1) : ℕ) : ℝ) := by exact_mod_cast h7
      have := hb1 rfl
      linarith

/-- The units of a finite value are below 2^277. -/
theorem units_lt (w : Word) (h : isFinite w = true) : units w < 2 ^ 277 := by
  have h1 := isFinite_mag h
  have h2 : magUnits (254 * 2 ^ 23 + 2 ^ 23) = 2 ^ 23 * 2 ^ 254 :=
    magUnits_binade 254 (2 ^ 23) (by norm_num) (Or.inr le_rfl)
  rw [units_eq]
  calc magUnits (f32Mag w) < magUnits (254 * 2 ^ 23 + 2 ^ 23) := magUnits_strictMono (by omega)
    _ = 2 ^ 23 * 2 ^ 254 := h2
    _ ≤ 2 ^ 277 := two_pow_mul_le (by omega)

theorem units_eq_zero_iff (w : Word) : units w = 0 ↔ isZero w = true := by
  rw [units_eq, isZero_iff]
  have h0 : magUnits 0 = 0 := by decide
  constructor
  · intro h; exact magUnits_strictMono.injective (h.trans h0.symm)
  · intro h; rw [h, h0]

theorem roundMag_le (n d : Nat) : roundMag n d ≤ 0x7F800000 := Nat.min_le_right _ _

theorem roundMag_lt (n d : Nat) : roundMag n d < 2 ^ 31 := by have := roundMag_le n d; omega


/-! ### NaNs, negation and `canon` -/

@[simp] theorem isNaN_qnan : isNaN qnan = true := by decide
@[simp] theorem isNaN_posZero : isNaN posZero = false := by decide
@[simp] theorem isZero_posZero : isZero posZero = true := by decide
@[simp] theorem isFinite_posZero : isFinite posZero = true := by decide

theorem isNaN_of_isFinite {w : Word} (h : isFinite w = true) : isNaN w = false := by
  have h1 := (isFinite_iff w).1 h
  rw [Bool.eq_false_iff, Ne, isNaN_iff]; omega

theorem isInf_of_isFinite {w : Word} (h : isFinite w = true) : isInf w = false := by
  have h1 := (isFinite_iff w).1 h
  rw [Bool.eq_false_iff, Ne, isInf_iff]; omega

/-- The only NaN `canon` gives is `QNAN` (R5). -/
theorem canon_eq_qnan_of_isNaN {v : Word} (h : isNaN (canon v) = true) : canon v = qnan := by
  unfold canon at *; split <;> simp_all

theorem canon_of_not_isNaN {v : Word} (h : isNaN v = false) : canon v = v := by simp [canon, h]

theorem canon_of_isNaN {v : Word} (h : isNaN v = true) : canon v = qnan := by simp [canon, h]

@[simp] theorem f32Mag_neg (w : Word) : f32Mag (f32Neg w) = f32Mag w := by
  have h : (f32Neg w).extractLsb' 0 31 = w.extractLsb' 0 31 := by
    rw [f32Neg, BitVec.extractLsb'_xor]
    simp
  rw [f32Mag, h, f32Mag]

@[simp] theorem f32Sign_neg (w : Word) : f32Sign (f32Neg w) = !f32Sign w := by
  rw [f32Sign, f32Neg, BitVec.getLsbD_xor, f32Sign]
  simp

@[simp] theorem units_neg (w : Word) : units (f32Neg w) = units w := by rw [units_eq, units_eq, f32Mag_neg]

theorem f32Value_neg (w : Word) : f32Value (f32Neg w) = -f32Value w := by
  rw [f32Value_eq, f32Value_eq, f32Sign_neg, units_neg]
  cases f32Sign w <;> simp <;> ring

/-- A word is its sign and magnitude. -/
theorem word_ext {v w : Word} (hs : f32Sign v = f32Sign w) (hm : f32Mag v = f32Mag w) : v = w := by
  rw [← pack_sign_mag v, ← pack_sign_mag w, hs, hm]

/-! ### What each operation does on finite operands -/

theorem isZero_not_of_isFinite_units {w : Word} (h : isZero w = false) : 0 < units w := by
  rcases Nat.eq_zero_or_pos (units w) with h0 | h0
  · rw [(units_eq_zero_iff w).1 h0] at h; cases h
  · exact h0

/-- `f32Add` of finite operands: the exact sum of the units, rounded once. -/
theorem f32Add_finite {a b : Word} (ha : isFinite a = true) (hb : isFinite b = true) :
    f32Add a b = if signedUnits a + signedUnits b = 0 then pack (f32Sign a && f32Sign b) 0
      else pack (decide (signedUnits a + signedUnits b < 0)) (roundMag (signedUnits a + signedUnits b).natAbs 1) := by
  simp [f32Add, isNaN_of_isFinite ha, isNaN_of_isFinite hb, isInf_of_isFinite ha, isInf_of_isFinite hb]

/-- `f32Mul` of finite operands: the exact product of the units, rounded once, with the product of the signs. -/
theorem f32Mul_finite {a b : Word} (ha : isFinite a = true) (hb : isFinite b = true) :
    f32Mul a b = pack (f32Sign a != f32Sign b) (roundMag (units a * units b) (2 ^ 149)) := by
  simp [f32Mul, isNaN_of_isFinite ha, isNaN_of_isFinite hb, isInf_of_isFinite ha, isInf_of_isFinite hb]

/-- `f32Div` of a finite value by a finite non-zero one: the exact quotient, rounded once. -/
theorem f32Div_finite {a b : Word} (ha : isFinite a = true) (hb : isFinite b = true) (h0 : isZero b = false) :
    f32Div a b = pack (f32Sign a != f32Sign b) (roundMag (units a * 2 ^ 149) (units b)) := by
  simp [f32Div, isNaN_of_isFinite ha, isNaN_of_isFinite hb, isInf_of_isFinite ha, isInf_of_isFinite hb, h0]

/-- `f32Sqrt` of a positive finite value: the exact root, rounded once. -/
theorem f32Sqrt_finite {a : Word} (ha : isFinite a = true) (h0 : isZero a = false) (hs : f32Sign a = false) :
    f32Sqrt a = pack false (roundMag (sqrtHalfUnits (units a)) 2) := by
  simp [f32Sqrt, isNaN_of_isFinite ha, isInf_of_isFinite ha, h0, hs]

/-! ### The open angle function -/

/-- The magnitude of the angle is at most that of PI_F32, whatever the free choice is. -/
theorem f32Mag_atan2F32_le (y x : Word) : f32Mag (atan2F32 y x) ≤ f32Mag piF32 := by
  have hpi : f32Mag piF32 < 2 ^ 31 := f32Mag_lt _
  have h := Nat.mod_lt (f32Mag (Config.atan2Raw y x)) (show 0 < f32Mag piF32 + 1 by omega)
  rw [atan2F32, f32Mag_pack _ (by omega)]
  omega

theorem isFinite_atan2F32 (y x : Word) : isFinite (atan2F32 y x) = true :=
  (isFinite_iff _).2 (lt_of_le_of_lt (f32Mag_atan2F32_le y x) (by decide))

theorem abs_f32Value_le (w : Word) (h : isFinite w = true) : |f32Value w| ≤ 2 ^ 128 := by
  have hu : (units w : ℚ) ≤ 2 ^ 277 := by exact_mod_cast (units_lt w h).le
  have hs : |(if f32Sign w then -1 else 1 : ℚ)| = 1 := by split <;> simp
  rw [f32Value_eq, abs_div, abs_mul, hs, one_mul, Nat.abs_cast, abs_of_pos (by positivity : (0 : ℚ) < 2 ^ 149),
    div_le_iff₀ (by positivity)]
  calc (units w : ℚ) ≤ 2 ^ 277 := hu
    _ = 2 ^ 128 * 2 ^ 149 := by rw [← pow_add]

theorem one_le_f32Ulp (w : Word) : 1 ≤ 2 ^ 149 * f32Ulp w := by
  have h : (2 : ℚ) ^ 1 ≤ 2 ^ max (f32Exponent w) 1 := pow_le_pow_right₀ (by norm_num) (le_max_right _ _)
  rw [f32Ulp, show (2 : ℚ) ^ 150 = 2 ^ 149 * 2 by norm_num]
  field_simp
  linarith

/-- Some bound meets ATAN2-ACC, so a claim that takes one as a premise is not empty (log 5). -/
theorem exists_atan2Acc : ∃ err, Atan2Acc err := by
  refine ⟨(2 ^ 128 + 4) * 2 ^ 149, fun y x _ _ _ _ => ?_⟩
  have hv : |(f32Value (atan2F32 y x) : ℝ)| ≤ 2 ^ 128 := by
    exact_mod_cast abs_f32Value_le _ (isFinite_atan2F32 y x)
  have ha : |Complex.arg ⟨f32Value x, f32Value y⟩| ≤ 4 := (Complex.abs_arg_le_pi _).trans Real.pi_le_four
  have hu : (1 : ℝ) ≤ 2 ^ 149 * f32Ulp (atan2F32 y x) := by exact_mod_cast one_le_f32Ulp _
  calc |(f32Value (atan2F32 y x) : ℝ) - Complex.arg ⟨f32Value x, f32Value y⟩|
      ≤ |(f32Value (atan2F32 y x) : ℝ)| + |Complex.arg ⟨f32Value x, f32Value y⟩| := abs_sub _ _
    _ ≤ (2 ^ 128 + 4) * 1 := by linarith
    _ ≤ (2 ^ 128 + 4) * (2 ^ 149 * f32Ulp (atan2F32 y x)) := by gcongr
    _ = (2 ^ 128 + 4) * 2 ^ 149 * f32Ulp (atan2F32 y x) := by ring

end Sys2Proof.Machine
end

