-- ==== Sys2Proof/Laws/PerInstr.lean ====
section
/-! SUPPORT. The per-instruction family: an instruction's own word has a legal OP, no reserved bit set, and the register
operand in its REG field. -/

namespace Sys2Proof.Laws.EncodedFields

/-- The encoded word's fields (R43, R45). -/
def Statement (i : Instr) : Prop :=
  opField (encode i) = i.op ∧ regField (encode i) = i.reg ∧ rsvdField (encode i) = 0 ∧ i.op.toNat < 9

theorem nop : Statement .nop := by unfold Statement; decide
theorem iqdec : Statement .iqdec := by unfold Statement; decide
theorem fmdem : Statement .fmdem := by unfold Statement; decide
theorem amdem : Statement .amdem := by unfold Statement; decide
theorem auddec : Statement .auddec := by unfold Statement; decide
theorem pipe : Statement .pipe := by unfold Statement; decide
theorem rdreg (idx : BitVec 8) : Statement (.rdreg idx) := by
  unfold Statement; revert idx; decide
theorem wrreg (idx : BitVec 8) : Statement (.wrreg idx) := by
  unfold Statement; revert idx; decide
theorem rstst : Statement .rstst := by unfold Statement; decide

end Sys2Proof.Laws.EncodedFields
end

