-- ==== Sys2Proof/Tests/Slice0.lean ====
section
/-! SUPPORT. The model's own tests: expected values are those of spec/95_test_vectors.md (the row is named) or written out
from the rule named. Then, for each statement with hypotheses, a witness that they can be met. -/

namespace Sys2Proof.Tests

open Sys2Proof Sys2Proof.Machine

/- Each `decide +kernel` waits for the theorems before it, on a thread of its own: one after another, they need no memory. -/
set_option Elab.async false

/-- The reset state with an unbounded `max_payload`, so that its value is known. -/
def base : State := { State.reset with maxPayload := none }

/-- The answer to one command from a state. -/
def answerTo (s : State) (word : Word) (payload : List Word) : Option Answer :=
  match step { s with host := [.command ⟨word, payload⟩] } with
  | .next t => t.answer
  | _ => none

/-- One register after one command from a state. -/
def regAfter (s : State) (r : Reg) (word : Word) (payload : List Word) : Option Word :=
  match step { s with host := [.command ⟨word, payload⟩] } with
  | .next t => some (t.stored r)
  | _ => none

/-- An accepted command's answer. -/
def okOut (out : List Word) : Option Answer := some ⟨0x00, out⟩

/-- A rejected command's answer. -/
def rejected (code : Byte) : Option Answer := some ⟨code, []⟩

/-! ### WellFormed: the one check, and the terms it refuses -/

theorem test_wf_refuses_rdreg_index_9 : Instr.wf (.rdreg 0x09) = false := by decide
theorem test_wf_refuses_wrreg_index_255 : Instr.wf (.wrreg 0xFF) = false := by decide
theorem test_wf_takes_every_assigned_index :
    ∀ r : Reg, Instr.wf (.rdreg (regIndex r)) = true ∧ Instr.wf (.wrreg (regIndex r)) = true := by
  intro r; cases r <;> decide

/-! ### Decode: words written out from the table of R45 and the register-access table below it -/

theorem test_decode_nop : decode 0x00000000 = .ok .nop := by decide
theorem test_decode_iqdec : decode 0x00000001 = .ok .iqdec := by decide
theorem test_decode_fmdem : decode 0x00000002 = .ok .fmdem := by decide
theorem test_decode_amdem : decode 0x00000003 = .ok .amdem := by decide
theorem test_decode_auddec : decode 0x00000004 = .ok .auddec := by decide
theorem test_decode_pipe : decode 0x00000005 = .ok .pipe := by decide
theorem test_decode_rdreg_status : decode 0b00000000000000000000000010000110 = .ok (.rdreg 0x08) := by decide
theorem test_decode_rdreg_all_ones : decode 0x00000FF6 = .ok (.rdreg 0xFF) := by decide
theorem test_decode_wrreg_aud_cnt : decode 0b00000000000000000000000001110111 = .ok (.wrreg 0x07) := by decide
theorem test_decode_rstst : decode 0x00000008 = .ok .rstst := by decide

/-- E3, E4: ILLEGAL_OP is tested before RSVD_BITS. -/
theorem test_decode_illegal_first :
    decode 0xFFFFFFFF = .error .illegalOp ∧ decode 0x0001000A = .error .illegalOp := by decide
/-- E5, E6, E7. -/
theorem test_decode_reserved_bits :
    decode 0x00001000 = .error .rsvdBits ∧ decode 0x00000011 = .error .rsvdBits ∧
    decode 0x00001096 = .error .rsvdBits := by decide
/-- R33: byte k is `w[8k+7:8k]`. -/
theorem test_decode_bytes : decodeBytes [0x86, 0x00, 0x00, 0x00, 0xAA] = .ok (.rdreg 0x08, [0xAA]) := by decide
theorem test_decode_partial_word : decodeBytes [0x86, 0x00, 0x00] = .error .incompleteWord := by decide
theorem test_decode_table_word : decodeTableWord 32 0x77 = some (.wrreg 0x07) := by decide
theorem test_decode_table_word_refuses : decodeTableWord 32 0x09 = none := by decide
theorem test_fetch_runs_from_reset : goesOn (step (State.reset.withFetchWord 32 0x00000007)) = true := by decide +kernel

/-! ### Binary32 -/

/-- I6: 16809471 lies halfway; ties to even. -/
theorem test_from_s32_tie : f32FromS32 16809471 = 0x4B803F00 := by decide +kernel
/-- U5: 0.1 + 0.2. -/
theorem test_add_inexact : f32Add 0x3DCCCCCD 0x3E4CCCCD = 0x3E99999A := by decide +kernel
/-- U1: 1/3. -/
theorem test_div_inexact : f32Div 0x3F800000 0x40400000 = 0x3EAAAAAB := by decide +kernel
/-- A4: sqrt 2. -/
theorem test_sqrt_inexact : f32Sqrt 0x40000000 = 0x3FB504F3 := by decide +kernel
/-- A10: the square of 1e-20 is subnormal and is kept (R3). -/
theorem test_mul_subnormal : isSubnormal (f32Mul 0x1E3CE508 0x1E3CE508) = true := by decide +kernel
/-- R2: `(+0) + (-0) = +0`, `(-0) + (-0) = -0`. -/
theorem test_add_zeros : f32Add posZero negZero = posZero ∧ f32Add negZero negZero = negZero := by decide +kernel

/-! ### The commands -/

/-- K7: a NOP keeps ERR_STICKY and sets LAST_CODE. -/
theorem test_nop_status : regAfter { base with status := 0x105 } .status 0x00 [] = some 0x00000100 := by decide +kernel
/-- E12. -/
theorem test_nop_payload : answerTo base 0x00 [1] = rejected 0x04 := by decide +kernel
/-- I8. -/
theorem test_iqdec_pairs : answerTo { base with iqN := 2 } 0x01 [0x00020001, 0x00040003, 0x00060005] =
    okOut [0x40800000, 0x40C00000] := by decide +kernel
/-- I1: the extremes of the sample range, real part first. -/
theorem test_iqdec_extremes : answerTo base 0x01 [0x7FFF8000, 0xFFFF0000] =
    okOut [0xC7000000, 0x46FFFE00, 0x00000000, 0xBF800000] := by decide +kernel
/-- W4: a carried previous sample, and the imaginary axis. -/
theorem test_fmdem_angles : answerTo base 0x02 [0x3F800000, 0, 0, 0x3F800000, 0xBF800000, 0] =
    okOut [0x00000000, 0x3FC90FDB, 0x3FC90FDB] := by decide +kernel
/-- F2: the sign of a zero part is ignored; the previous sample keeps its bits. -/
theorem test_fmdem_negative_axis :
    answerTo { base with fmPrevRe := 0x3F800000, fmPrevIm := 0x80000000 } 0x02 [0xBF800000, 0x80000000] =
      okOut [0x40490FDB] ∧
    regAfter { base with fmPrevRe := 0x3F800000, fmPrevIm := 0x80000000 } .fmPrevIm 0x02 [0xBF800000, 0x80000000] =
      some 0x80000000 := by decide +kernel
/-- A1, A2, A12. -/
theorem test_amdem_magnitudes :
    answerTo base 0x03 [0x40400000, 0x40800000, 0x80000000, 0x80000000, 0xFF800000, 0x7FC00000] =
      okOut [0x40A00000, 0x00000000, 0x7FC00000] := by decide +kernel
/-- A16: an odd payload. -/
theorem test_amdem_odd : answerTo base 0x03 [0x3F800000] = rejected 0x04 := by decide +kernel
/-- W6: the second block completes the first block's window. -/
theorem test_auddec_carried_window :
    answerTo { base with audN := 2, audAcc := 0x40400000, audCnt := 1 } 0x04 [0x40800000, 0x40A00000, 0x40C00000] =
      okOut [0x40600000, 0x40B00000] := by decide +kernel
/-- U6: two windows, two samples left. -/
theorem test_auddec_count :
    regAfter { base with audN := 3, audAcc := 0x3F800000, audCnt := 1 } .audCnt 0x04 (List.replicate 7 0x3F800000) =
      some 0x00000002 := by decide +kernel
/-- P-3: the W9 signal in FM mode. -/
theorem test_pipe_fm :
    answerTo { base with iqN := 2, audN := 2, audGain := 0x40000000 } 0x05
      [0x000003E8, 0x03E80000, 0x0000FC18, 0xFC180000, 0x000003E8, 0x03E80000, 0x0000FC18, 0xFC180000] =
      okOut [0x40490FDB, 0x40C90FDB] := by decide +kernel
/-- P-2: AM mode; the last magnitude waits in the window. -/
theorem test_pipe_am :
    regAfter { base with mode := 1, iqN := 2, audN := 2 } .audAcc 0x05
      [0x00010001, 0x00030002, 0x0000FFFD, 0xFFFC0000, 0x00080006, 0x00000000, 0x00090009] =
      some 0x41200000 := by decide +kernel
/-- K10: RDREG STATUS answers the status before its own completion. -/
theorem test_rdreg_status :
    answerTo { base with status := 0x105 } 0x86 [] = okOut [0x00000105] ∧
    regAfter { base with status := 0x105 } .status 0x86 [] = some 0x00000100 := by decide +kernel
/-- E11: BAD_REG is checked before BAD_LENGTH. -/
theorem test_rdreg_bad_reg : answerTo base 0x96 [1] = rejected 0x03 := by decide +kernel
/-- K3: the same AUD_N still clears the window. -/
theorem test_wrreg_aud_n_clears :
    regAfter { base with audN := 3, audAcc := 0x40000000, audCnt := 2 } .audCnt 0x17 [3] = some 0x00000000 := by
  decide +kernel
/-- K4: AUD_CNT must be below AUD_N; E19: BAD_LENGTH is checked before BAD_VALUE. -/
theorem test_wrreg_rejections :
    answerTo { base with audN := 3 } 0x77 [3] = rejected 0x05 ∧ answerTo base 0x77 [5, 6] = rejected 0x04 := by
  decide +kernel
/-- K6: RSTST clears the stream context and keeps the configuration. -/
theorem test_rstst :
    regAfter { base with audN := 2, audAcc := 0x40400000, audCnt := 1 } .audAcc 0x08 [] = some 0x00000000 ∧
    regAfter { base with audN := 2, audAcc := 0x40400000, audCnt := 1 } .audN 0x08 [] = some 0x00000002 := by
  decide +kernel
/-- E28: a payload above a finite `max_payload`. -/
theorem test_max_payload : answerTo { base with maxPayload := some 2 } 0x01 [1, 2, 3] = rejected 0x04 := by decide +kernel

/-! ### The assembler: the examples of R53 and lines of the programs of section 3 -/

theorem test_assemble_wrreg : assembleLine "WRREG IQ_N, 0x00000002" = some [⟨0x00000007, [0x00000002]⟩] := by
  decide +kernel
theorem test_assemble_iqdec :
    assembleLine "IQDEC [iq(1, 2), iq(3, 4)]" = some [⟨0x00000001, [0x00020001, 0x00040003]⟩] := by decide +kernel
theorem test_assemble_floats :
    assembleLine "AUDDEC [f(0.1), f(1e8), f(-1)] ; a comment" =
      some [⟨0x00000004, [0x3DCCCCCD, 0x4CBEBC20, 0xBF800000]⟩] := by decide +kernel
theorem test_assemble_config :
    assembleLine "CONFIG 0x00000002, 0x00000002, f(1), 0x00000001" =
      some [⟨0x07, [2]⟩, ⟨0x17, [2]⟩, ⟨0x27, [0x3F800000]⟩, ⟨0x37, [1]⟩] := by decide +kernel
theorem test_assemble_index : assembleLine "RDREG #9" = some [⟨0x00000096, []⟩] := by decide +kernel
theorem test_assemble_refuses : assembleLine "NOP [0x00000000]" = none := by decide +kernel

/-! ### Witnesses: the hypotheses of the statements can be met -/

/-- A payload of three pairs on factors 2 and 2. -/
def busy : State := { base with iqN := 2, audN := 2, audCnt := 1, payload := [0x00020001, 0x00040003, 0x00060005] }
/-- Two complex samples. -/
def samples : State := { base with payload := [0x3F800000, 0x00000000, 0x00000000, 0x3F800000] }
/-- A state whose host issues this one command next. -/
def issuing (word : Word) (payload : List Word) : State := { base with host := [.command ⟨word, payload⟩] }

theorem witness_EncodeOfDecodeIsTheWord : decode 0x00000FF7 = .ok (.wrreg 0xFF) := by decide
theorem witness_StepRunsTheDecodedCommand :
    (issuing 0x26 []).host = .command ⟨0x26, []⟩ :: [] ∧ decode 0x26 = .ok (.rdreg 0x02) := by decide
theorem witness_IllegalOpIsRejected :
    (issuing 0xFFFFFFFF [7]).host = .command ⟨0xFFFFFFFF, [7]⟩ :: [] ∧ 9 ≤ (0x00000009 : Word).toNat % 16 ∧ 9 ≤ (0xFFFFFFFF : Word).toNat % 16 := by decide +kernel
theorem witness_ReservedBitsAreRejected :
    (issuing 0x00001008 []).host = .command ⟨0x00001008, []⟩ :: [] ∧
    (issuing 0x00000010 []).host = .command ⟨0x00000010, []⟩ :: [] ∧ (0x00000010 : Word).toNat % 16 < 9 ∧
    (0x00001008 : Word).toNat % 16 < 9 ∧ (0x00001008 : Word).toNat / 4096 ≠ 0 ∧
    ((0x00000010 : Word).toNat % 16 ≠ 6 ∧ (0x00000010 : Word).toNat % 16 ≠ 7 ∧
      (0x00000010 : Word).toNat / 16 % 256 ≠ 0) := by decide +kernel
theorem witness_AnswerIsTheFirstFailingCheck : (issuing 0x77 [1]).host = .command ⟨0x77, [1]⟩ :: [] := by decide
theorem witness_RejectionIsPrecise :
    ∃ t a, step (issuing 0x77 [1]) = .next t ∧ t.answer = some a ∧ a.code ≠ 0 :=
  ⟨_, _, rfl, rfl, by decide +kernel⟩
theorem witness_CompletionRecordsTheCode :
    (∃ t a, step { issuing 0x87 [0x100] with status := 0x105 } = .next t ∧ t.answer = some a ∧ a.code = 0 ∧
      t.status = 0x00000000) ∧
    (∃ t a, step (issuing 0x77 [1]) = .next t ∧ t.answer = some a ∧ a.code = 5 ∧ t.status = 0x00000105) ∧
    (∃ t a, step { issuing 0x00 [] with status := 0x105 } = .next t ∧ t.answer = some a ∧ a.code = 0 ∧
      t.status = 0x00000100) :=
  ⟨⟨_, _, rfl, rfl, by decide +kernel⟩, ⟨_, _, rfl, rfl, by decide +kernel⟩, ⟨_, _, rfl, rfl, by decide +kernel⟩⟩
theorem witness_IdleBlockChangesNothing : base.host = [] := by decide
theorem witness_StepTakesOneMove : ∃ t, step (issuing 0x00 []) = .next t := ⟨_, rfl⟩
theorem witness_ResetMoveSetsEveryRegister : { busy with host := [.reset] }.host = .reset :: [] := by decide
theorem witness_EveryStepKeepsRegistersLegal :
    let s := { busy with host := [.command ⟨0x08, []⟩] }
    s.Legal ∧ ∃ t, step s = .next t :=
  ⟨by decide +kernel, _, rfl⟩
theorem witness_NopOnlyCompletes : base.payload = [] ∧ busy.payload ≠ [] := by decide
theorem witness_RdregAnswersTheRegister :
    (0x00 : BitVec 8).toNat ≤ 8 ∧ (0x08 : BitVec 8).toNat ≤ 8 ∧ base.payload = [] := by decide
theorem witness_RdregRejects : 8 < (0x09 : BitVec 8).toNat ∧ (0x08 : BitVec 8).toNat ≤ 8 ∧ busy.payload ≠ [] := by decide
theorem witness_WrregStoresConfiguration :
    ({ base with payload := [0x0000FFFF] }.payload = [0x0000FFFF] ∧ base.fits 1 ∧
      0 < (0x0000FFFF : Word).toNat ∧ (0x0000FFFF : Word).toNat < 65536) ∧
    (0 < (0x00000001 : Word).toNat ∧ (0x00000001 : Word).toNat < 2 ∧ (0x00000000 : Word).toNat < 2) := by decide
theorem witness_WrregAudNClearsTheWindow :
    base.fits 1 ∧ (0 < (1 : Word).toNat ∧ (0xFFFF : Word).toNat < 65536) ∧ ¬ 0 < (0 : Word).toNat ∧
    ¬ (0x10000 : Word).toNat < 65536 := by decide
theorem witness_WrregStoresStreamContext :
    busy.fits 1 ∧ (1 : Word).toNat < busy.audN.toNat % 65536 ∧ (0 : Word).toNat < busy.audN.toNat % 65536 := by decide
theorem witness_WrregStatusClearsOnlyTheStickyBit :
    { base with payload := [0x100] }.payload = [0x00000100] ∧ { base with payload := [0] }.payload = [0x00000000] ∧
    base.fits 1 := by decide
theorem witness_WrregRejects :
    8 < (0x09 : BitVec 8).toNat ∧ base.payload.length ≠ 1 ∧ { base with maxPayload := some 0 }.tooLong 1 = true ∧
    base.fits 1 ∧ legalNumber 1 0 0 = false ∧ legalNumber 1 1 65536 = false ∧ legalNumber 1 3 2 = false ∧
    legalNumber 1 7 1 = false ∧ legalNumber 1 8 1 = false ∧ legalNumber 1 8 512 = false := by decide
theorem witness_WriteThenReadGivesTheWordBack :
    base.fits 1 ∧ legalNumber 65536 0x07 65535 = true ∧ legalNumber 1 0x00 65535 = true ∧
    { base with host := issues [⟨encode (.wrreg 0x02), [7]⟩, ⟨encode (.rdreg 0x02), []⟩] [] }.host =
      issues [⟨encode (.wrreg 0x02), [7]⟩, ⟨encode (.rdreg 0x02), []⟩] [] := by decide +kernel
theorem witness_RestoredContextIsTheSavedOne :
    let u := { base with audN := 2, host := issues (Pseudo.restorectx (busy.readValue .fmPrevRe)
      (busy.readValue .fmPrevIm) (busy.readValue .audAcc) (busy.readValue .audCnt)).expand [.reset] }
    busy.Legal ∧ u.audN = busy.audN ∧ u.fits 1 ∧ u.host.length = 5 := by decide +kernel
theorem witness_ConfigSetsTheConfiguration :
    let s := { base with host := issues (Pseudo.config 1 0xFFFF 0x3F800000 1).expand [] }
    s.fits 1 ∧ s.host = issues (Pseudo.config 1 0xFFFF 0x3F800000 1).expand [] ∧ 0 < (1 : Word).toNat ∧ (0xFFFF : Word).toNat < 65536 ∧ (1 : Word).toNat < 2 := by decide +kernel
theorem witness_RststStartsANewStream : base.payload = [] ∧ busy.payload ≠ [] := by decide
theorem witness_IqdecEmitsGroupSums : busy.fits busy.payload.length ∧ 0 < busy.nIq.toNat ∧
    0 < busy.payload.length / busy.nIq.toNat := by decide
theorem witness_SummationRegistersHoldExactSums :
    0 < (0x0001 : Half).toNat ∧ (List.replicate 65535 (0x80008000 : Word)).length ≤ 65535 :=
  ⟨by decide, by rw [List.length_replicate]⟩
theorem witness_ShortBlockGivesEmptyOutput :
    { busy with iqN := 4 }.fits 3 ∧ { busy with iqN := 4 }.payload.length < { busy with iqN := 4 }.nIq.toNat := by decide
theorem witness_TrailingPairsAreDiscarded :
    0 < busy.nIq.toNat ∧ busy.fits ([1, 2] ++ [3] : List Word).length ∧
    ([1, 2] : List Word).length % busy.nIq.toNat = 0 ∧ ([3] : List Word).length < busy.nIq.toNat := by decide
theorem witness_DecimationIsAssociative :
    let s := { busy with payload := List.replicate 512 0x80007FFF }
    s.fits 512 ∧ s.payload.length = 512 ∧ 0 < s.nIq.toNat ∧ 512 % s.nIq.toNat = 0 :=
  ⟨rfl, List.length_replicate, by decide, by decide⟩
/-- A block of more than 512 pairs whose sums are small. -/
theorem witness_DecimationIsAssociative_large :
    let s := { busy with iqN := 200, payload := List.replicate 600 0xFFFF0001 }
    s.fits 600 ∧ s.payload.length = 600 ∧ 600 % s.nIq.toNat = 0 ∧
    ∀ half : Word → Half, half = lowHalf ∨ half = highHalf → ∀ j, j ≤ 600 / s.nIq.toNat →
      |groupSum half s.nIq.toNat j s.payload| ≤ 2 ^ 24 ∧ |groupSum half (j * s.nIq.toNat) 0 s.payload| ≤ 2 ^ 24 := by
  refine ⟨rfl, List.length_replicate, by decide, ?_⟩
  rintro half (rfl | rfl) <;> decide +kernel
theorem witness_IntegerConversionIsNearest :
    (-2 ^ 31 : Int) ≤ -2147483648 ∧ (2147483647 : Int) < 2 ^ 31 ∧ (-16777216 : Int).natAbs ≤ 2 ^ 24 := by decide
theorem witness_FactorConversionIsExact : 1 ≤ 1 ∧ 65535 ≤ 65535 := by decide
theorem witness_AdditionRoundsOnce :
    isFinite 0x7F7FFFFF = true ∧ isFinite 0x00000001 = true ∧
    f32Value 0x3F800000 + f32Value 0xBF800000 = 0 ∧
    f32Value 0x80000000 = f32Value 0x00000000 := by
  refine ⟨by decide, by decide, ?_, ?_⟩
  · simp only [f32Value, show signedUnits 0x3F800000 = 2 ^ 149 by decide +kernel,
      show signedUnits 0xBF800000 = -2 ^ 149 by decide +kernel]
    norm_num
  · simp only [f32Value, show signedUnits 0x80000000 = 0 by decide, show signedUnits 0x00000000 = 0 by decide]
theorem witness_MultiplicationRoundsOnce : isFinite 0x7F7FFFFF = true ∧ isFinite 0x80000001 = true := by decide
theorem witness_DivisionRoundsOnce :
    isFinite 0x7F7FFFFF = true ∧ isFinite 0x00000001 = true ∧ isZero 0x00000001 = false := by decide
theorem witness_SquareRootRoundsOnce :
    (isFinite 0x00000001 = true ∧ isZero 0x00000001 = false ∧ f32Sign 0x00000001 = false) ∧
    (isFinite 0x80000000 = true ∧ isZero 0x80000000 = true) := by decide
theorem witness_ExceptionalOperandsFollowTheStandard :
    isNaN 0x7F800001 = true ∧ isNaN 0x7FC00000 = true ∧ f32Sign 0x7FC00000 = false ∧ isInf 0xFF800000 = true ∧ isInf 0x7F800000 = true ∧
    (isFinite 0x80000000 = true ∧ isZero 0x80000000 = true) ∧ (isFinite 0x00000001 = true ∧ isZero 0x00000001 = false) ∧
    (f32Sign 0xFF800000 = true ∧ isZero 0xFF800000 = false) := by decide
theorem witness_EmittedNaNsAreCanonical :
    ∃ t a, exec .fmdem { base with payload := [0x7FC00001, 0] } = .next t ∧ t.answer = some a ∧
      ∃ w ∈ a.out, isNaN w = true :=
  ⟨_, _, rfl, rfl, 0x7FC00000, by decide +kernel, by decide⟩
theorem witness_AngleOnTheAxes :
    isNaN 0x7FC00000 = true ∧ isZero 0x80000000 = true ∧
    (isNaN 0xFF800000 = false ∧ isZero 0xFF800000 = false) ∧ (isNaN 0x3F800000 = false ∧ isZero 0x3F800000 = false) := by
  decide
theorem witness_OpenAngleKeepsRangeAndSign : f32Sign 0x3F800000 = false ∧ f32Sign 0xBF800000 = true := by decide
/-- 1 + i against 2 + i: the product 3 + i is off the axes. -/
theorem witness_FmdemAnglesAreAccurate :
    (∃ err, Atan2Acc err) ∧
    let s := { base with payload := [0x3F800000, 0x3F800000], fmPrevRe := 0x40000000, fmPrevIm := 0x3F800000 }
    s.fits s.payload.length ∧ s.payload.length % 2 = 0 ∧ 0 < s.payload.length / 2 ∧
    let z := sampleAt s.payload 0
    let p := sampleBefore s s.payload 0
    let re := f32Add (f32Mul z.1 p.1) (f32Mul z.2 p.2)
    let im := f32Sub (f32Mul z.2 p.1) (f32Mul z.1 p.2)
    re = 0x40400000 ∧ im = 0x3F800000 ∧ isFinite re = true ∧ isFinite im = true ∧ isZero re = false ∧
    isZero im = false :=
  ⟨exists_atan2Acc, by decide +kernel⟩
theorem witness_FmdemEmitsAngles :
    (samples.fits samples.payload.length ∧ samples.payload.length % 2 = 0 ∧ 0 < samples.payload.length / 2) ∧
    (base.fits base.payload.length ∧ base.payload.length % 2 = 0) := by decide
theorem witness_FmdemIsContinuousAcrossSplits :
    base.fits ([1, 2] ++ [3, 4] : List Word).length ∧ ([1, 2] : List Word).length % 2 = 0 ∧
    ([3, 4] : List Word).length % 2 = 0 := by decide
theorem witness_ZeroSampleGivesZeroAngle :
    let s := { base with payload := [0x80000000, 0x00000000], fmPrevRe := 0x40A00000, fmPrevIm := 0xC0C00000 }
    s.fits 2 ∧ isFinite 0x80000000 = true ∧ isFinite s.fmPrevRe = true ∧ isFinite s.fmPrevIm = true ∧
    isZero 0x80000000 = true ∧ isZero 0x00000000 = true ∧ isZero base.fmPrevRe = true ∧ isZero base.fmPrevIm = true := by
  decide
theorem witness_EqualSampleGivesZeroAngle :
    let s := { base with payload := [0x71800000, 0x71800000], fmPrevRe := 0x71800000, fmPrevIm := 0x71800000 }
    s.fits 2 ∧ s.fmPrevRe = 0x71800000 ∧ s.fmPrevIm = 0x71800000 ∧ isFinite 0x71800000 = true ∧
    isFinite (f32Mul 0x71800000 0x71800000) = false ∧ isFinite (f32Mul 0x40400000 0x40800000) = true := by decide +kernel
theorem witness_FirstAngleOfAStreamIsZero :
    let s := { base with host := issues [⟨encode .rstst, []⟩, ⟨encode .fmdem, [0x3F800000, 0x7F7FFFFF]⟩] [] }
    s.fits 2 ∧ isFinite 0x3F800000 = true ∧ isFinite 0x7F7FFFFF = true ∧ s.host.length = 2 := by decide +kernel
/-- 1.0 and 2^31, the largest magnitude of the range, are in the range of R73, and so is +0. -/
theorem test_in_iq_range : inIqRange 0x3F800000 ∧ inIqRange 0x4F000000 ∧ inIqRange 0x00000000 := by
  refine ⟨⟨by decide, ?_⟩, ⟨by decide, ?_⟩, ⟨by decide, ?_⟩⟩ <;>
    simp only [f32Value, show signedUnits 0x3F800000 = 2 ^ 149 by decide +kernel,
      show signedUnits 0x4F000000 = 2 ^ 180 by decide +kernel, show signedUnits 0x00000000 = 0 by decide +kernel] <;>
    norm_num
theorem witness_AnglesStayInRange :
    (∃ t a, exec .fmdem samples = .next t ∧ t.answer = some a ∧ a.out ≠ []) ∧
    (∀ w ∈ samples.payload, inIqRange w) ∧ inIqRange samples.fmPrevRe ∧ inIqRange samples.fmPrevIm := by
  obtain ⟨one, -, zero⟩ := test_in_iq_range
  refine ⟨⟨_, _, rfl, rfl, by decide +kernel⟩, ?_, zero, zero⟩
  intro w hw
  have hw : w = 0x3F800000 ∨ w = 0x00000000 := by
    have : w ∈ [(0x3F800000 : Word), 0, 0, 0x3F800000] := hw
    simp only [List.mem_cons, List.not_mem_nil, or_false] at this
    tauto
  rcases hw with rfl | rfl
  · exact one
  · exact zero
theorem witness_AmdemEmitsMagnitudes :
    samples.fits samples.payload.length ∧ samples.payload.length % 2 = 0 ∧ 0 < samples.payload.length / 2 := by decide
theorem witness_AmdemIsStateless :
    base.fits ([1, 2] ++ [3, 4] : List Word).length ∧ busy.fits ([1, 2] ++ [3, 4] : List Word).length ∧
    ([1, 2] : List Word).length % 2 = 0 ∧ ([3, 4] : List Word).length % 2 = 0 := by decide
theorem witness_MagnitudesAreNeverNegative :
    ∃ t a, exec .amdem samples = .next t ∧ t.answer = some a ∧ a.out ≠ [] :=
  ⟨_, _, rfl, rfl, by decide +kernel⟩
theorem witness_AuddecEmitsWindows :
    busy.fits busy.payload.length ∧ busy.cnt.toNat < busy.nAud.toNat ∧
    0 < (busy.cnt.toNat + busy.payload.length) / busy.nAud.toNat := by decide
theorem witness_WindowsSpanCommands :
    busy.fits ([1, 2] ++ [3] : List Word).length ∧ busy.cnt.toNat < busy.nAud.toNat := by decide
theorem witness_PipeIsItsThreeStages :
    (0 < busy.nIq.toNat ∧ busy.fits busy.payload.length ∧
      busy.fits (2 * (busy.payload.length / busy.nIq.toNat)) ∧ demodulator busy = .fmdem) ∧
    demodulator { busy with mode := 1 } = .amdem ∧
    (let s := { busy with iqN := 1, maxPayload := some 3 };
      0 < s.nIq.toNat ∧ s.fits s.payload.length ∧ s.tooLong (2 * (s.payload.length / s.nIq.toNat)) = true) := by
  decide
theorem witness_PipeWritesWindowAndFmPrevOnly :
    busy.fits busy.payload.length ∧ 0 < busy.nIq.toNat ∧ busy.cnt.toNat < busy.nAud.toNat ∧
    { busy with mode := 1 }.mode.getLsbD 0 = true := by decide
theorem witness_DataCommandsRejectBadLengths :
    busy.payload.length % 2 = 1 ∧ { busy with maxPayload := some 2 }.tooLong 3 = true := by decide

end Sys2Proof.Tests
end

section
/-! PROOFS. The statements on binary32 arithmetic (00_scope.md section 5.1): the conversions, the five operations on finite
and on exceptional operands, and the NaNs that data commands emit. -/

namespace Sys2Proof.Machine

/-! ### Values in units of 2^-149, and their zeros -/

/-- An integer is its sign times its magnitude. -/
theorem intCast_eq_sign_mul_natAbs {R : Type} [Ring R] (z : Int) :
    (z : R) = (if decide (z < 0) then -1 else 1) * (z.natAbs : R) := by
  rcases lt_or_ge z 0 with hneg | hpos
  · rw [decide_eq_true hneg, if_pos rfl, neg_one_mul, ← Int.cast_natCast, ← Int.cast_neg]
    congr 1; omega
  · rw [decide_eq_false hpos.not_gt, if_neg Bool.false_ne_true, one_mul, ← Int.cast_natCast]
    congr 1; omega

theorem abs_f32Value (w : Word) : |f32Value w| = units w / 2 ^ 149 := by
  have hs : |(if f32Sign w then -1 else 1 : ℚ)| = 1 := by split <;> simp
  rw [f32Value_eq, abs_div, abs_mul, hs, one_mul, Nat.abs_cast, abs_of_pos (by positivity : (0 : ℚ) < 2 ^ 149)]

theorem f32Value_eq_zero_iff (w : Word) : f32Value w = 0 ↔ isZero w = true := by
  rw [← abs_eq_zero, abs_f32Value, ← units_eq_zero_iff]
  simp

/-- Finite values stay below the overflow bound: the largest is half a unit in the last place away from it. -/
theorem abs_f32Value_lt_overflowBound {w : Word} (h : isFinite w = true) : |f32Value w| < overflowBound := by
  have hmag := isFinite_mag h
  have htop := magUnits_binade 253 (2 ^ 24 - 1) (by norm_num) (Or.inr (by norm_num))
  have hunits : units w ≤ 16777215 * 2 ^ 253 := by
    rw [units_eq]; exact (magUnits_strictMono.monotone (by omega)).trans htop.le
  have hunitsQ : (units w : ℚ) ≤ 16777215 * 2 ^ 253 := by exact_mod_cast hunits
  rw [abs_f32Value, div_lt_iff₀ (by positivity), overflowBound]
  exact hunitsQ.trans_lt (by norm_num)

/-- A 24-bit significand shifted by any exponent step of the finite range is the magnitude of a finite word. -/
theorem exists_mag_of_significand (e q : Nat) (he : e ≤ 252) (hq : q ≤ 2 ^ 24) :
    ∃ m < 255 * 2 ^ 23, magUnits m = q * 2 ^ e := by
  induction e generalizing q with
  | zero =>
    rcases hq.lt_or_eq with hlt | rfl
    · exact ⟨0 * 2 ^ 23 + q, by omega, magUnits_binade 0 q hlt (Or.inl rfl)⟩
    · exact ⟨0 * 2 ^ 23 + 2 ^ 24, by norm_num, magUnits_binade_top 0⟩
  | succ e ih =>
    rcases lt_or_ge q (2 ^ 23) with hsmall | hnormal
    · obtain ⟨m, hm, hu⟩ := ih (2 * q) (by omega) (by omega)
      exact ⟨m, hm, by rw [hu]; ring⟩
    · rcases hq.lt_or_eq with hlt | rfl
      · exact ⟨(e + 1) * 2 ^ 23 + q, by omega, magUnits_binade (e + 1) q hlt (Or.inr hnormal)⟩
      · exact ⟨(e + 1) * 2 ^ 23 + 2 ^ 24, by omega, magUnits_binade_top (e + 1)⟩

/-- Every integer of magnitude at most 2^24 is a finite value. -/
theorem exists_f32Value_eq_int (n : Int) (h : n.natAbs ≤ 2 ^ 24) : ∃ v, isFinite v = true ∧ f32Value v = n := by
  obtain ⟨m, hm, hu⟩ := exists_mag_of_significand 149 n.natAbs (by norm_num) h
  have h31 : m < 2 ^ 31 := by omega
  refine ⟨pack (decide (n < 0)) m, by rw [isFinite_iff, f32Mag_pack _ h31]; omega, ?_⟩
  rw [f32Value_eq, f32Sign_pack _ h31, units_eq, f32Mag_pack _ h31, hu, Nat.cast_mul, Nat.cast_pow, Nat.cast_ofNat,
    ← mul_assoc, mul_div_cancel_right₀ _ (by positivity),
    ← intCast_eq_sign_mul_natAbs]

/-! ### What correct rounding gives -/

/-- Below the overflow bound a correct rounding is finite. -/
theorem RoundsTo.isFinite {x : ℝ} {w : Word} (h : RoundsTo x w) (hx : |x| < overflowBound) : isFinite w = true := by
  rw [RoundsTo, if_neg hx.not_ge] at h
  exact h.1

/-- Below the overflow bound no finite value is nearer than a correct rounding. -/
theorem RoundsTo.nearest {x : ℝ} {w v : Word} (h : RoundsTo x w) (hx : |x| < overflowBound)
    (hv : Machine.isFinite v = true) : |(f32Value w : ℝ) - x| ≤ |(f32Value v : ℝ) - x| := by
  rw [RoundsTo, if_neg hx.not_ge] at h
  exact (h.2 v hv).1

/-- A number that is itself a finite value is rounded to that value. -/
theorem RoundsTo.value_eq {w v : Word} (h : RoundsTo (f32Value v : ℝ) w) (hv : Machine.isFinite v = true) :
    f32Value w = f32Value v := by
  have hbound : |((f32Value v : ℚ) : ℝ)| < overflowBound := by exact_mod_cast abs_f32Value_lt_overflowBound hv
  have hnear := h.nearest hbound hv
  rw [sub_self, abs_zero, abs_nonpos_iff, sub_eq_zero] at hnear
  exact_mod_cast hnear

/-- An integer other than 0 is not rounded to a zero: 1 or -1 is nearer. -/
theorem RoundsTo.value_ne_zero {n : Int} {w : Word} (h : RoundsTo n w) (hn : |(n : ℝ)| < overflowBound) (h0 : n ≠ 0) :
    f32Value w ≠ 0 := by
  intro hw
  obtain ⟨v, hv, hval⟩ := exists_f32Value_eq_int n.sign (by rw [Int.natAbs_sign_of_ne_zero h0]; norm_num)
  have hnear := h.nearest hn hv
  rw [hw, hval, Rat.cast_zero, zero_sub, abs_neg, Rat.cast_intCast] at hnear
  have hnear' : |n| ≤ |n.sign - n| := by exact_mod_cast hnear
  rcases lt_or_gt_of_ne h0 with hneg | hpos
  · rw [Int.sign_eq_neg_one_of_neg hneg, abs_of_neg hneg, abs_of_nonneg (by omega)] at hnear'; omega
  · rw [Int.sign_eq_one_of_pos hpos, abs_of_pos hpos, abs_of_nonpos (by omega)] at hnear'; omega

/-- A whole number of units, rounded once with its own sign, is correctly rounded. -/
theorem roundsTo_signed (z : Int) : RoundsTo ((z : ℝ) / 2 ^ 149) (pack (decide (z < 0)) (roundMag z.natAbs 1)) := by
  have hz : (z : ℝ) = (if decide (z < 0) then -1 else 1) * ((z.natAbs : ℝ) / (1 : ℕ)) := by
    rw [Nat.cast_one, div_one]
    exact intCast_eq_sign_mul_natAbs z
  rw [hz]
  exact roundsTo_roundMag _ _ 1 one_pos

/-- Either zero is a correct rounding of 0. -/
theorem roundsTo_zero (s : Bool) : RoundsTo 0 (pack s 0) := by
  have h := roundsTo_roundMag s 0 1 one_pos
  rwa [show roundMag 0 1 = 0 by decide, Nat.cast_zero, zero_div, mul_zero, zero_div] at h

/-! ### The conversions (R6, R7) -/

/-- The conversion is one rounding of the integer's units. -/
theorem f32FromS32_eq (n : Int) :
    f32FromS32 n = pack (decide (n * 2 ^ 149 < 0)) (roundMag (n * 2 ^ 149).natAbs 1) := by
  have hsign : n * 2 ^ 149 < 0 ↔ n < 0 := by omega
  rw [f32FromS32, Int.natAbs_mul, decide_eq_decide.2 hsign]
  rfl

theorem roundsTo_f32FromS32 (n : Int) : RoundsTo n (f32FromS32 n) := by
  have h := roundsTo_signed (n * 2 ^ 149)
  rwa [← f32FromS32_eq, Int.cast_mul, Int.cast_pow, Int.cast_ofNat, mul_div_cancel_right₀ _ (by positivity)] at h

theorem f32Value_f32FromS32 (n : Int) (h : n.natAbs ≤ 2 ^ 24) : f32Value (f32FromS32 n) = n := by
  obtain ⟨v, hv, hval⟩ := exists_f32Value_eq_int n h
  have hround := roundsTo_f32FromS32 n
  rw [← Rat.cast_intCast, ← hval] at hround
  rw [hround.value_eq hv, hval]

theorem abs_intCast_lt_overflowBound {n : Int} (lo : -2 ^ 31 ≤ n) (hi : n < 2 ^ 31) : |(n : ℝ)| < overflowBound := by
  have habs : |n| ≤ 2 ^ 31 := abs_le.2 ⟨lo, hi.le⟩
  calc |(n : ℝ)| ≤ 2 ^ 31 := by exact_mod_cast habs
    _ < overflowBound := by norm_num [overflowBound]

/-- Settles O35: the conversion rounds the integer's units once; small integers are values themselves, and no other
integer than 0 is rounded to a zero. -/
theorem integerConversionIsNearest : Obligations.IntegerConversionIsNearest := by
  refine ⟨fun n lo hi => ?_, by decide⟩
  have hround := roundsTo_f32FromS32 n
  have hbound := abs_intCast_lt_overflowBound lo hi
  refine ⟨hround, hround.isFinite hbound, fun hneg => ?_, f32Value_f32FromS32 n⟩
  have h0 : n ≠ 0 := by
    rintro rfl
    exact absurd hneg (by decide)
  apply hround.value_ne_zero hbound h0
  rw [f32Value_eq_zero_iff, hneg]
  decide

/-- Settles O36: a factor is below 2^24, where the integer conversion is exact. -/
theorem factorConversionIsExact : Obligations.FactorConversionIsExact := by
  intro n h1 hn
  have hval : f32Value (f32FromU16 n) = n := f32Value_f32FromS32 n (by omega)
  refine ⟨hval, ?_, ?_⟩
  · exact (roundsTo_f32FromS32 n).isFinite (abs_intCast_lt_overflowBound (by omega) (by omega))
  · rw [← Bool.not_eq_true, ← f32Value_eq_zero_iff, hval]
    exact_mod_cast (by omega : n ≠ 0)

/-! ### The operations on finite operands (R2, R3) -/

@[simp] theorem isNaN_neg (w : Word) : isNaN (f32Neg w) = isNaN w := by
  rw [Bool.eq_iff_iff, isNaN_iff, isNaN_iff, f32Mag_neg]

@[simp] theorem isInf_neg (w : Word) : isInf (f32Neg w) = isInf w := by
  rw [Bool.eq_iff_iff, isInf_iff, isInf_iff, f32Mag_neg]

@[simp] theorem isZero_neg (w : Word) : isZero (f32Neg w) = isZero w := by
  rw [Bool.eq_iff_iff, isZero_iff, isZero_iff, f32Mag_neg]

@[simp] theorem isFinite_neg (w : Word) : isFinite (f32Neg w) = isFinite w := by
  rw [Bool.eq_iff_iff, isFinite_iff, isFinite_iff, f32Mag_neg]

/-- The two zeros, by class and sign. -/
theorem eq_pack_zero_iff (w : Word) (s : Bool) : w = pack s 0 ↔ isZero w = true ∧ f32Sign w = s := by
  constructor
  · rintro rfl
    rw [isZero_iff, f32Mag_pack _ (by norm_num), f32Sign_pack _ (by norm_num)]
    exact ⟨rfl, rfl⟩
  · rintro ⟨hz, hs⟩
    apply word_ext
    · rw [hs, f32Sign_pack _ (by norm_num)]
    · rw [(isZero_iff w).1 hz, f32Mag_pack _ (by norm_num)]

theorem roundsTo_f32Add {a b : Word} (ha : isFinite a = true) (hb : isFinite b = true) :
    RoundsTo (f32Value a + f32Value b : ℚ) (f32Add a b) := by
  have hsum : ((f32Value a + f32Value b : ℚ) : ℝ) = ((signedUnits a + signedUnits b : ℤ) : ℝ) / 2 ^ 149 := by
    simp only [f32Value]; push_cast; ring
  rw [hsum, f32Add_finite ha hb]
  split
  · next hz => rw [hz, Int.cast_zero, zero_div]; exact roundsTo_zero _
  · exact roundsTo_signed _

/-- Two finite values that cancel have the sum -0 only where both are -0: two negative signs leave no other way. -/
theorem f32Add_of_cancel {a b : Word} (ha : isFinite a = true) (hb : isFinite b = true)
    (h : f32Value a + f32Value b = 0) :
    f32Add a b = if a = 0x80000000 ∧ b = 0x80000000 then 0x80000000 else 0x00000000 := by
  have hz : signedUnits a + signedUnits b = 0 := by
    rw [f32Value, f32Value, ← add_div, div_eq_zero_iff] at h
    exact_mod_cast h.resolve_right (by positivity)
  have hzeros : (f32Sign a && f32Sign b) = true ↔ a = pack true 0 ∧ b = pack true 0 := by
    rw [Bool.and_eq_true, eq_pack_zero_iff, eq_pack_zero_iff]
    refine ⟨fun ⟨hsa, hsb⟩ => ?_, fun ⟨h1, h2⟩ => ⟨h1.2, h2.2⟩⟩
    rw [signedUnits, if_pos hsa, signedUnits, if_pos hsb] at hz
    exact ⟨⟨(units_eq_zero_iff a).1 (by omega), hsa⟩, (units_eq_zero_iff b).1 (by omega), hsb⟩
  rw [f32Add_finite ha hb, if_pos hz]
  change _ = if a = pack true 0 ∧ b = pack true 0 then pack true 0 else pack false 0
  by_cases hs : (f32Sign a && f32Sign b) = true
  · rw [if_pos (hzeros.1 hs), hs]
  · rw [if_neg (mt hzeros.2 hs), Bool.eq_false_iff.2 hs]

/-- Settles O37: subtraction is the addition of the negated operand, so both follow from `f32Add_finite`. -/
theorem additionRoundsOnce : Obligations.AdditionRoundsOnce := by
  intro a b ha hb
  have hnb : isFinite (f32Neg b) = true := by rw [isFinite_neg, hb]
  have hneg : f32Neg b = 0x80000000 ↔ b = 0x00000000 := by
    change f32Neg b = pack true 0 ↔ b = pack false 0
    rw [eq_pack_zero_iff, eq_pack_zero_iff, isZero_neg, f32Sign_neg, Bool.not_eq_true']
  refine ⟨roundsTo_f32Add ha hb, ?_, f32Add_of_cancel ha hb, fun h => ?_⟩
  · have hround := roundsTo_f32Add ha hnb
    rwa [f32Value_neg, ← sub_eq_add_neg] at hround
  · have hsum := f32Add_of_cancel ha hnb (by rw [f32Value_neg, h, add_neg_cancel])
    simpa only [f32Sub, hneg] using hsum

/-- The sign of a product or quotient: the exclusive or of the operands' signs. -/
theorem sign_bne (s t : Bool) :
    (if (s != t) then -1 else 1 : ℝ) = (if s then -1 else 1) * (if t then -1 else 1) := by
  cases s <;> cases t <;> simp

/-- A word's value as a real number: its sign times its units. -/
theorem f32Value_real (w : Word) :
    ((f32Value w : ℚ) : ℝ) = (if f32Sign w then -1 else 1) * (units w : ℝ) / 2 ^ 149 := by
  rw [f32Value_eq]; split <;> push_cast <;> rfl

/-- Settles O38, by `roundsTo_roundMag` on the product of the units. -/
theorem multiplicationRoundsOnce : Obligations.MultiplicationRoundsOnce := by
  intro a b ha hb
  rw [f32Mul_finite ha hb, f32Sign_pack _ (roundMag_lt _ _)]
  refine ⟨?_, rfl⟩
  have hround := roundsTo_roundMag (f32Sign a != f32Sign b) (units a * units b) (2 ^ 149) (by positivity)
  have hval : ((f32Value a * f32Value b : ℚ) : ℝ) = (if (f32Sign a != f32Sign b) then -1 else 1) *
      (((units a * units b : ℕ) : ℝ) / (2 ^ 149 : ℕ)) / 2 ^ 149 := by
    rw [Rat.cast_mul, f32Value_real, f32Value_real, sign_bne]; push_cast; ring
  rwa [hval]

/-- Settles O39, by `roundsTo_roundMag` on the quotient of the units. -/
theorem divisionRoundsOnce : Obligations.DivisionRoundsOnce := by
  intro a b ha hb h0
  have hpos : 0 < units b := isZero_not_of_isFinite_units h0
  rw [f32Div_finite ha hb h0, f32Sign_pack _ (roundMag_lt _ _)]
  refine ⟨?_, rfl⟩
  have hround := roundsTo_roundMag (f32Sign a != f32Sign b) (units a * 2 ^ 149) (units b) hpos
  have hval : ((f32Value a / f32Value b : ℚ) : ℝ) = (if (f32Sign a != f32Sign b) then -1 else 1) *
      (((units a * 2 ^ 149 : ℕ) : ℝ) / (units b : ℕ)) / 2 ^ 149 := by
    have hb0 : (units b : ℝ) ≠ 0 := by exact_mod_cast hpos.ne'
    rw [Rat.cast_div, f32Value_real, f32Value_real, sign_bne]
    generalize (if f32Sign a then -1 else 1 : ℝ) = g
    push_cast
    cases f32Sign b
    · rw [if_neg Bool.false_ne_true]; field_simp; ring
    · rw [if_pos rfl]; field_simp; ring
  rwa [hval]

theorem f32Sqrt_zero {a : Word} (h : isZero a = true) (hn : isNaN a = false) : f32Sqrt a = a := by
  simp [f32Sqrt, h, hn]

/-- Settles O40, by `roundsTo_sqrt`: rounding the sticky half-unit root rounds the exact one. -/
theorem squareRootRoundsOnce : Obligations.SquareRootRoundsOnce := by
  intro a ha
  refine ⟨fun h0 hs => ?_, fun h0 => f32Sqrt_zero h0 (isNaN_of_isFinite ha)⟩
  rw [f32Sqrt_finite ha h0 hs, f32Sign_pack _ (roundMag_lt _ _), f32Value_real, hs]
  refine ⟨?_, rfl⟩
  simpa using roundsTo_sqrt (units a) (isZero_not_of_isFinite_units h0) (units_lt a ha)

/-! ### The operations on NaNs, infinities and zero divisors (log 14) -/

theorem isNaN_of_isInf {w : Word} (h : isInf w = true) : isNaN w = false := by
  have hmag := (isInf_iff w).1 h
  rw [Bool.eq_false_iff, Ne, isNaN_iff]; omega

theorem isZero_of_isInf {w : Word} (h : isInf w = true) : isZero w = false := by
  have hmag := (isInf_iff w).1 h
  rw [Bool.eq_false_iff, Ne, isZero_iff]; omega

theorem isFinite_of_isZero {w : Word} (h : isZero w = true) : isFinite w = true := by
  have hmag := (isZero_iff w).1 h
  rw [isFinite_iff]; omega

/-- The infinity of a sign, as `f32Mul` and `f32Div` pack it. -/
@[simp] theorem isInf_pack_inf (s : Bool) : isInf (pack s 0x7F800000) = true := by
  rw [isInf_iff, f32Mag_pack _ (by norm_num)]

@[simp] theorem f32Sign_pack_inf (s : Bool) : f32Sign (pack s 0x7F800000) = s := f32Sign_pack _ (by norm_num)

@[simp] theorem isZero_pack_zero (s : Bool) : isZero (pack s 0) = true := ((eq_pack_zero_iff _ s).1 rfl).1

@[simp] theorem f32Sign_pack_zero (s : Bool) : f32Sign (pack s 0) = s := ((eq_pack_zero_iff _ s).1 rfl).2

section NaNOperand
variable {a b : Word} (h : isNaN a = true ∨ isNaN b = true)
include h

theorem f32Add_of_isNaN : f32Add a b = qnan := if_pos (by simpa using h)
theorem f32Sub_of_isNaN : f32Sub a b = qnan := f32Add_of_isNaN (by rwa [isNaN_neg])
theorem f32Mul_of_isNaN : f32Mul a b = qnan := if_pos (by simpa using h)
theorem f32Div_of_isNaN : f32Div a b = qnan := if_pos (by simpa using h)

end NaNOperand

section TwoInfinities
variable {a b : Word} (ha : isInf a = true) (hb : isInf b = true)
include ha hb

theorem f32Add_inf_inf : f32Add a b = if f32Sign a = f32Sign b then a else qnan := by
  simp only [f32Add, isNaN_of_isInf ha, isNaN_of_isInf hb, ha, hb]
  by_cases hs : f32Sign a = f32Sign b <;> simp [hs]

theorem f32Sub_inf_inf : f32Sub a b = if f32Sign a = f32Sign b then qnan else a := by
  rw [f32Sub, f32Add_inf_inf ha ((isInf_neg b).trans hb), f32Sign_neg]
  cases f32Sign a <;> cases f32Sign b <;> rfl

theorem f32Mul_inf_inf : f32Mul a b = pack (f32Sign a != f32Sign b) 0x7F800000 := by
  simp [f32Mul, isNaN_of_isInf ha, isNaN_of_isInf hb, isZero_of_isInf ha, isZero_of_isInf hb, ha]

theorem f32Div_inf_inf : f32Div a b = qnan := by
  simp [f32Div, isNaN_of_isInf ha, isNaN_of_isInf hb, ha, hb]

end TwoInfinities

section InfinityAndFinite
variable {a b : Word} (ha : isInf a = true) (hb : isFinite b = true)
include ha hb

theorem f32Add_inf_finite : f32Add a b = a := by
  simp [f32Add, isNaN_of_isInf ha, isNaN_of_isFinite hb, isInf_of_isFinite hb, ha]

theorem f32Add_finite_inf : f32Add b a = a := by
  simp [f32Add, isNaN_of_isInf ha, isNaN_of_isFinite hb, isInf_of_isFinite hb, ha]

theorem f32Sub_inf_finite : f32Sub a b = a := f32Add_inf_finite ha ((isFinite_neg b).trans hb)

theorem f32Sub_finite_inf : f32Sub b a = f32Neg a := f32Add_finite_inf ((isInf_neg a).trans ha) hb

/-- Infinity times a finite value, in this order: zero is the invalid operand. -/
theorem f32Mul_inf_finite :
    f32Mul a b = if isZero b then qnan else pack (f32Sign a != f32Sign b) 0x7F800000 := by
  simp [f32Mul, isNaN_of_isInf ha, isNaN_of_isFinite hb, isInf_of_isFinite hb, isZero_of_isInf ha, ha]

theorem f32Div_inf_finite : f32Div a b = pack (f32Sign a != f32Sign b) 0x7F800000 := by
  simp [f32Div, isNaN_of_isInf ha, isNaN_of_isFinite hb, isInf_of_isFinite hb, isZero_of_isInf ha, ha]

theorem f32Div_finite_inf : f32Div b a = pack (f32Sign b != f32Sign a) 0 := by
  simp [f32Div, isNaN_of_isInf ha, isNaN_of_isFinite hb, isInf_of_isFinite hb, isZero_of_isInf ha, ha]

end InfinityAndFinite

theorem f32Mul_comm (a b : Word) : f32Mul a b = f32Mul b a := by
  simp only [f32Mul, Bool.or_comm (isNaN a), Bool.or_comm (isInf a), Bool.and_comm (isInf a), Bool.and_comm (isZero a),
    Bool.or_comm (isZero b && isInf a), bne_comm (a := f32Sign a), Nat.mul_comm (units a)]

/-- A finite value over a zero: 0/0 is invalid, any other value gives an infinity. -/
theorem f32Div_finite_zero {a b : Word} (ha : isFinite a = true) (hb : isZero b = true) :
    f32Div a b = if isZero a then qnan else pack (f32Sign a != f32Sign b) 0x7F800000 := by
  have hfin := isFinite_of_isZero hb
  simp [f32Div, isNaN_of_isFinite ha, isNaN_of_isFinite hfin, isInf_of_isFinite ha, hb]

theorem f32Sqrt_of_isNaN {a : Word} (h : isNaN a = true) : f32Sqrt a = qnan := if_pos h

theorem f32Sqrt_negative {a : Word} (hs : f32Sign a = true) (h0 : isZero a = false) : f32Sqrt a = qnan := by
  simp [f32Sqrt, hs, h0]

/-- Settles O41, class by class of the operands. -/
theorem exceptionalOperandsFollowTheStandard : Obligations.ExceptionalOperandsFollowTheStandard := by
  intro a b productSign
  refine ⟨fun h => ?nan, fun ha hb => ?infInf, fun ha hb => ?infFinite, fun ha hb => ?zeroDivisor,
    fun h => ?sqrtNaN, fun hs h0 => ?sqrtNegative, by decide⟩
  case nan => simp [f32Add_of_isNaN h, f32Sub_of_isNaN h, f32Mul_of_isNaN h, f32Div_of_isNaN h]
  case infInf =>
    rw [f32Mul_inf_inf ha hb, f32Div_inf_inf ha hb]
    exact ⟨f32Add_inf_inf ha hb, f32Sub_inf_inf ha hb, isInf_pack_inf _, f32Sign_pack_inf _, isNaN_qnan⟩
  case infFinite =>
    rw [f32Mul_comm b a, f32Mul_inf_finite ha hb, f32Div_inf_finite ha hb, f32Div_finite_inf ha hb,
      f32Sub_finite_inf ha hb, isInf_neg, bne_comm (a := f32Sign b)]
    refine ⟨f32Add_inf_finite ha hb, f32Add_finite_inf ha hb, f32Sub_inf_finite ha hb, ha, f32Sign_neg a,
      fun h0 => ?_, fun h0 => ?_, isInf_pack_inf _, f32Sign_pack_inf _, isZero_pack_zero _, f32Sign_pack_zero _⟩
    · simp [h0]
    · simp [h0, productSign]
  case zeroDivisor =>
    rw [f32Div_finite_zero ha hb]
    exact ⟨fun h0 => by simp [h0], fun h0 => by simp [h0, productSign]⟩
  case sqrtNaN => rw [f32Sqrt_of_isNaN h, isNaN_qnan]
  case sqrtNegative => rw [f32Sqrt_negative hs h0, isNaN_qnan]

/-! ### The NaNs that data commands emit (R5) -/

/-- The word is no NaN but the canonical one. -/
def CanonicalNaN (w : Word) : Prop := isNaN w = true → w = qnan

theorem canonicalNaN_canon (v : Word) : CanonicalNaN (canon v) := canon_eq_qnan_of_isNaN

theorem canonicalNaN_of_isFinite {w : Word} (h : isFinite w = true) : CanonicalNaN w :=
  fun hn => absurd hn (by rw [isNaN_of_isFinite h]; exact Bool.false_ne_true)

/-- A rounded magnitude is a finite value's or the infinity's. -/
theorem canonicalNaN_pack_roundMag (s : Bool) (n d : Nat) : CanonicalNaN (pack s (roundMag n d)) := by
  intro hn
  rw [isNaN_iff, f32Mag_pack _ (roundMag_lt n d)] at hn
  exact absurd (roundMag_le n d) hn.not_ge

/-- Each line of R65 gives QNAN, the open angle, which is finite, or one of the finite constants. -/
theorem canonicalNaN_angle (re im : Word) : CanonicalNaN (angle re im) := by
  unfold angle
  split_ifs
  · exact fun _ => rfl
  on_goal 6 => exact canonicalNaN_of_isFinite (isFinite_atan2F32 im re)
  all_goals exact canonicalNaN_of_isFinite (by decide)

/-- What holds of both words of every sample holds of every word of their list. -/
theorem forall_mem_sampleWords {P : Word → Prop} {zs : List Sample} (h : ∀ z ∈ zs, P z.1 ∧ P z.2) :
    ∀ w ∈ sampleWords zs, P w := by
  induction zs with
  | nil => intro w hw; cases hw
  | cons z zs ih =>
    have hz := h z List.mem_cons_self
    have hrest := ih fun y hy => h y (List.mem_cons_of_mem z hy)
    rw [sampleWords_cons]
    exact List.forall_mem_cons.2 ⟨hz.1, List.forall_mem_cons.2 ⟨hz.2, hrest⟩⟩

/-- The outputs of `iq_step` are converted integers. -/
theorem canonicalNaN_iqStep (n : Half) (r : SumRegs) (w : Word) :
    ∀ z ∈ (iqStep n r w).2, CanonicalNaN z.1 ∧ CanonicalNaN z.2 := by
  intro z hz
  simp only [iqStep] at hz
  split at hz
  · rw [List.mem_singleton.1 hz]
    exact ⟨canonicalNaN_pack_roundMag _ _ _, canonicalNaN_pack_roundMag _ _ _⟩
  · cases hz

theorem canonicalNaN_audStep (n : Half) (scale : Word) (r : Window) (v : Word) :
    ∀ w ∈ (audStep n scale r v).2, CanonicalNaN w := by
  intro w hw
  simp only [audStep] at hw
  split at hw
  · rw [List.mem_singleton.1 hw]; exact canonicalNaN_canon _
  · cases hw

/-- After a window step the accumulator is +0 or a canonical sum, whatever it was before. -/
theorem canonicalNaN_audStep_acc (n : Half) (scale : Word) (r : Window) (v : Word) :
    CanonicalNaN (audStep n scale r v).1.acc := by
  simp only [audStep]
  split
  · exact canonicalNaN_of_isFinite isFinite_posZero
  · exact canonicalNaN_canon _

theorem canonicalNaN_pipeStep (c : PipeConfig) (r : PipeRegs) (x : Word) :
    ∀ w ∈ (pipeStep c r x).2, CanonicalNaN w := by
  unfold pipeStep
  split
  · exact canonicalNaN_audStep _ _ _ _
  · intro w hw; cases hw

/-- A payload word leaves the accumulator as it is, or a window step makes it canonical. -/
theorem pipeStep_acc (c : PipeConfig) (r : PipeRegs) (x : Word) :
    (pipeStep c r x).1.window.acc = r.window.acc ∨ CanonicalNaN (pipeStep c r x).1.window.acc := by
  unfold pipeStep
  split
  · exact Or.inr (canonicalNaN_audStep_acc _ _ _ _)
  · exact Or.inl rfl

theorem runSteps_audStep_acc (n : Half) (scale : Word) (r : Window) (xs : List Word) :
    (runSteps (audStep n scale) r xs).1.acc = r.acc ∨ CanonicalNaN (runSteps (audStep n scale) r xs).1.acc :=
  runSteps_invariant (audStep n scale) (fun r' => r'.acc = r.acc ∨ CanonicalNaN r'.acc)
    (fun r' v _ => Or.inr (canonicalNaN_audStep_acc n scale r' v)) xs r (Or.inl rfl)

theorem runSteps_pipeStep_acc (c : PipeConfig) (r : PipeRegs) (xs : List Word) :
    (runSteps (pipeStep c) r xs).1.window.acc = r.window.acc ∨
      CanonicalNaN (runSteps (pipeStep c) r xs).1.window.acc :=
  runSteps_invariant (pipeStep c) (fun r' => r'.window.acc = r.window.acc ∨ CanonicalNaN r'.window.acc)
    (fun r' x hr => (pipeStep_acc c r' x).elim (fun hkept => by rwa [hkept]) Or.inr) xs r (Or.inl rfl)

theorem writePipe_audAcc (s : State) (c : PipeConfig) (r : PipeRegs) :
    (s.writePipe c r).audAcc = r.window.acc := by
  unfold State.writePipe
  split <;> rfl

/-- What R5 asks of a command's effect: canonical outputs, and an accumulator kept or canonical. -/
def EmitsCanonical (s t : State) (out : List Word) : Prop :=
  (∀ w ∈ out, CanonicalNaN w) ∧ (t.audAcc = s.audAcc ∨ CanonicalNaN t.audAcc)

/-- Completion and rejection keep what R5 asks: an accepted command answers its effect's output, a rejected one nothing. -/
theorem issue_emitsCanonical {s t : State} {i : Instr} {a : Answer} {run : State → State × List Word}
    (h : s.issue i run = .next t) (ha : t.answer = some a) (hrun : EmitsCanonical s (run s).1 (run s).2) :
    EmitsCanonical s t a.out := by
  rcases issue_cases s i run with ⟨-, h'⟩ | ⟨-, h'⟩
  · obtain rfl : _ = t := Host.Outcome.next.inj (h'.symm.trans h)
    obtain rfl : _ = a := Option.some.inj ha
    exact hrun
  · obtain rfl : _ = t := Host.Outcome.next.inj (h'.symm.trans h)
    obtain rfl : _ = a := Option.some.inj ha
    exact ⟨fun w hw => absurd hw List.not_mem_nil, Or.inl rfl⟩

section DataCommands
variable {s t : State} {a : Answer} (ha : t.answer = some a)
include ha

theorem execIqdec_emitsCanonical (h : exec .iqdec s = .next t) : EmitsCanonical s t a.out := by
  rw [exec, execIqdec] at h
  exact issue_emitsCanonical h ha
    ⟨forall_mem_sampleWords (runSteps_outputs _ _ (canonicalNaN_iqStep _) _ _), Or.inl rfl⟩

theorem execFmdem_emitsCanonical (h : exec .fmdem s = .next t) : EmitsCanonical s t a.out := by
  rw [exec, execFmdem] at h
  refine issue_emitsCanonical h ha ⟨runSteps_outputs _ _ (fun prev z w hw => ?_) _ _, Or.inl rfl⟩
  rw [List.mem_singleton.1 hw]
  exact canonicalNaN_angle _ _

theorem execAmdem_emitsCanonical (h : exec .amdem s = .next t) : EmitsCanonical s t a.out := by
  rw [exec, execAmdem] at h
  refine issue_emitsCanonical h ha ⟨fun w hw => ?_, Or.inl rfl⟩
  obtain ⟨z, -, rfl⟩ := List.mem_map.1 hw
  exact canonicalNaN_canon _

theorem execAuddec_emitsCanonical (h : exec .auddec s = .next t) : EmitsCanonical s t a.out := by
  rw [exec, execAuddec] at h
  exact issue_emitsCanonical h ha
    ⟨runSteps_outputs _ _ (canonicalNaN_audStep _ _) _ _, runSteps_audStep_acc _ _ s.window s.payload⟩

theorem execPipe_emitsCanonical (h : exec .pipe s = .next t) : EmitsCanonical s t a.out := by
  rw [exec, execPipe] at h
  refine issue_emitsCanonical h ha ⟨runSteps_outputs _ _ (canonicalNaN_pipeStep _) _ _, ?_⟩
  simp only [writePipe_audAcc]
  exact runSteps_pipeStep_acc s.pipeConfig s.pipeRegs s.payload

end DataCommands

/-- Settles O42: the canonical NaN is the only one that a data command's effect makes, command by command. -/
theorem emittedNaNsAreCanonical : Obligations.EmittedNaNsAreCanonical := by
  intro i s t a hi h ha
  have hcanonical : EmitsCanonical s t a.out := by
    simp only [List.mem_cons, List.not_mem_nil, or_false] at hi
    rcases hi with rfl | rfl | rfl | rfl | rfl
    · exact execIqdec_emitsCanonical ha h
    · exact execFmdem_emitsCanonical ha h
    · exact execAmdem_emitsCanonical ha h
    · exact execAuddec_emitsCanonical ha h
    · exact execPipe_emitsCanonical ha h
  obtain ⟨hout, hacc⟩ := hcanonical
  exact ⟨hout, fun hn => hacc.imp_right fun h' => h' hn⟩

end Sys2Proof.Machine
end

section
/-! PROOFS. The statements on the architectural state (10_state.md): the register invariant of every step, the reset values,
and what RDREG and WRREG read and write. -/

namespace Sys2Proof.Machine

/-! ### What each register takes and gives, in numbers -/

section LegalWrites
variable {s : State} {v : Word}

theorem legalWrite_iqN_iff : s.legalWrite .iqN v = true ↔ 0 < v.toNat ∧ v.toNat < 65536 := by
  rw [legalWrite_eq_legalNumber s 0x00 .iqN v rfl]; simp [legalNumber]

theorem legalWrite_audN_iff : s.legalWrite .audN v = true ↔ 0 < v.toNat ∧ v.toNat < 65536 := by
  rw [legalWrite_eq_legalNumber s 0x01 .audN v rfl]; simp [legalNumber]

theorem legalWrite_mode_iff : s.legalWrite .mode v = true ↔ v.toNat < 2 := by
  rw [legalWrite_eq_legalNumber s 0x03 .mode v rfl]; simp [legalNumber]

theorem legalWrite_audCnt_iff : s.legalWrite .audCnt v = true ↔ v.toNat < s.audN.toNat % 65536 := by
  rw [legalWrite_eq_legalNumber s 0x07 .audCnt v rfl]; simp [legalNumber]

end LegalWrites

/-- A mask of the lowest `n` bits leaves the remainder modulo `2 ^ n`. -/
theorem and_lowBits (w : Word) (n : Nat) (hn : n ≤ 32) :
    w &&& BitVec.ofNat 32 (2 ^ n - 1) = BitVec.ofNat 32 (w.toNat % 2 ^ n) := by
  have hmask : 2 ^ n - 1 < 2 ^ 32 := (Nat.sub_lt (by positivity) one_pos).trans_le (Nat.pow_le_pow_right two_pos hn)
  have hmod : w.toNat % 2 ^ n < 2 ^ 32 := (Nat.mod_le _ _).trans_lt w.isLt
  rw [← BitVec.toNat_inj, BitVec.toNat_and, BitVec.toNat_ofNat, BitVec.toNat_ofNat, Nat.mod_eq_of_lt hmask,
    Nat.mod_eq_of_lt hmod, Nat.and_two_pow_sub_one_eq_mod]

/-- The width of a register's field: the bits above it are reserved (R20). -/
def fieldWidth : Reg → Nat
  | .iqN | .audN | .audCnt => 16
  | .mode => 1
  | .status => 9
  | .audGain | .fmPrevRe | .fmPrevIm | .audAcc => 32

theorem fieldBits_eq (r : Reg) : fieldBits r = BitVec.ofNat 32 (2 ^ fieldWidth r - 1) := by cases r <;> rfl

/-- `read_value` of R23 as a number. -/
theorem readValue_eq (s : State) (r : Reg) :
    s.readValue r = BitVec.ofNat 32 ((s.stored r).toNat % 2 ^ fieldWidth r) := by
  rw [State.readValue, fieldBits_eq, and_lowBits _ _ (by cases r <;> decide)]

/-! ### WRREG -/

/-- What `WRREG` needs to pass its checks: an assigned index, and one word that is legal for its register (R94, R101). -/
theorem check_wrreg_ok {s : State} {idx : BitVec 8} (h : s.check (.wrreg idx) = .ok) :
    ∃ r v, regOf idx = some r ∧ s.payload = [v] ∧ s.legalWrite r v = true := by
  rcases check_cases s (.wrreg idx) with ⟨-, hc⟩ | ⟨-, -, hc⟩ | ⟨-, -, -, -, hc⟩ | ⟨hidx, -, hlen, hdata, -⟩
  case inr.inr.inr =>
    obtain ⟨r, hr⟩ := Option.isSome_iff_exists.1 hidx
    obtain ⟨v, hv⟩ := List.length_eq_one_iff.1 (beq_iff_eq.1 hlen)
    exact ⟨r, v, hr, hv, by simpa [State.dataLegal, hr, hv] using hdata⟩
  all_goals exact absurd (hc.symm.trans h) (by decide)

/-- A word that is not legal for its register is rejected with BAD_VALUE (R94). -/
theorem execWrreg_badValue {s : State} {idx : BitVec 8} {r : Reg} {v : Word} (hr : regOf idx = some r)
    (h : s.payload = [v]) (hf : s.fits 1) (hl : s.legalWrite r v = false) :
    exec (.wrreg idx) s = .next (s.reject .badValue) := by
  have hc : s.check (.wrreg idx) = .badValue := by
    rw [State.fits] at hf
    simp [State.check, regAssigned, lengthTaken, State.dataLegal, hr, h, hf, hl]
  exact exec_rejected hc (by decide)

/-! ### Every operation keeps the registers legal (R117) -/

@[simp] theorem lastCode_clearSticky (status : Word) : lastCode (clearSticky status) = lastCode status := by
  simp [lastCode, clearSticky, BitVec.extractLsb'_and]
  exact BitVec.and_allOnes

theorem highHalf_zero : highHalf 0x00000000#32 = 0 := by decide

theorem reset_legal : State.reset.Legal := by decide

section KeepsLegal
variable {s : State} (h : s.Legal)
include h

/-- Completion writes no register but STATUS, and there a code that exists and no reserved bit. -/
theorem complete_legal (c : ResultCode) (out : List Word) : (s.complete c out).Legal := by
  obtain ⟨hiq, hiq0, haud, haud0, hmode, hcnt, hlt, hrsvd, -⟩ := h
  refine ⟨hiq, hiq0, haud, haud0, hmode, hcnt, hlt, ?_, ?_⟩
  · rw [complete_status, upper_recordCode, hrsvd]
  · rw [complete_status, lastCode_recordCode]
    exact codeByte_toNat_le c

/-- A counter below the audio factor may be written back. -/
theorem setWindow_legal {w : Window} (hw : w.cnt.toNat < s.nAud.toNat) : (s.setWindow w).Legal := by
  obtain ⟨hiq, hiq0, haud, haud0, hmode, -, -, hrsvd, hcode⟩ := h
  refine ⟨hiq, hiq0, haud, haud0, hmode, highHalf_zext32 w.cnt, ?_, hrsvd, hcode⟩
  rwa [State.cnt, setWindow_audCnt, lowHalf_zext32]

theorem writePipe_legal {c : PipeConfig} {r : PipeRegs} (hr : r.window.cnt.toNat < s.nAud.toNat) :
    (s.writePipe c r).Legal := by
  have hwindow := setWindow_legal h hr
  unfold State.writePipe
  split
  · exact hwindow
  · exact hwindow

/-- A non-zero audio factor is above a window counter of 0. -/
theorem nAud_pos : 0 < s.nAud.toNat := by
  obtain ⟨-, -, -, -, -, -, hlt, -, -⟩ := h
  exact Nat.zero_lt_of_lt hlt

theorem newStream_legal : s.newStream.Legal := by
  have hpos := nAud_pos h
  obtain ⟨hiq, hiq0, haud, haud0, hmode, -, -, hrsvd, hcode⟩ := h
  exact ⟨hiq, hiq0, haud, haud0, hmode, highHalf_zero, hpos, hrsvd, hcode⟩

/-- A legal write leaves legal registers; a new audio factor needs the window cleared with it (R11). -/
theorem writeReg_legal {r : Reg} {v : Word} (hl : s.legalWrite r v = true) : (s.writeReg r v).Legal := by
  obtain ⟨hiq, hiq0, haud, haud0, hmode, hcnt, hlt, hrsvd, hcode⟩ := h
  cases r with
  | iqN =>
    obtain ⟨hv, hv0⟩ : highHalf v = 0 ∧ lowHalf v ≠ 0 := by simpa [State.legalWrite] using hl
    exact ⟨hv, hv0, haud, haud0, hmode, hcnt, hlt, hrsvd, hcode⟩
  | audN =>
    obtain ⟨hv, hv0⟩ : highHalf v = 0 ∧ lowHalf v ≠ 0 := by simpa [State.legalWrite] using hl
    have hpos : 0 < (lowHalf v).toNat := Nat.pos_of_ne_zero fun h0 => hv0 (BitVec.eq_of_toNat_eq h0)
    exact ⟨hiq, hiq0, hv, hv0, hmode, highHalf_zero, hpos, hrsvd, hcode⟩
  | mode =>
    have hv : v.extractLsb' 1 31 = 0 := by simpa [State.legalWrite] using hl
    exact ⟨hiq, hiq0, haud, haud0, hv, hcnt, hlt, hrsvd, hcode⟩
  | audCnt =>
    obtain ⟨hv, hvlt⟩ : highHalf v = 0 ∧ (lowHalf v).toNat < s.nAud.toNat := by simpa [State.legalWrite] using hl
    exact ⟨hiq, hiq0, haud, haud0, hmode, hv, hvlt, hrsvd, hcode⟩
  | status =>
    rw [writeReg_status]
    split
    · exact ⟨hiq, hiq0, haud, haud0, hmode, hcnt, hlt, (upper_clearSticky _).trans hrsvd,
        (lastCode_clearSticky s.status).symm ▸ hcode⟩
    · exact ⟨hiq, hiq0, haud, haud0, hmode, hcnt, hlt, hrsvd, hcode⟩
  | audGain | fmPrevRe | fmPrevIm | audAcc => exact ⟨hiq, hiq0, haud, haud0, hmode, hcnt, hlt, hrsvd, hcode⟩

/-- A command leaves legal registers where its effect does; a rejected one has no effect. -/
theorem issue_legal {t : State} {i : Instr} {run : State → State × List Word}
    (ht : s.issue i run = .next t) (hrun : s.check i = .ok → (run s).1.Legal) : t.Legal := by
  rcases issue_cases s i run with ⟨hc, hi⟩ | ⟨-, hi⟩
  · obtain rfl : _ = t := Host.Outcome.next.inj (hi.symm.trans ht)
    exact complete_legal (hrun hc) .ok _
  · obtain rfl : _ = t := Host.Outcome.next.inj (hi.symm.trans ht)
    exact complete_legal h _ []

end KeepsLegal

/-! ### The window counter stays below the audio factor (R82) -/

/-- One window step counts to the factor and then starts again from 0, so it never wraps. -/
theorem audStep_cnt_lt {n : Half} {w : Window} (hw : w.cnt.toNat < n.toNat) (scale v : Word) :
    (audStep n scale w v).1.cnt.toNat < n.toNat := by
  have hn := n.isLt
  have hnext : (w.cnt + 1).toNat = w.cnt.toNat + 1 := BitVec.toNat_add_of_lt (by simp; omega)
  simp only [audStep]
  split
  · exact Nat.zero_lt_of_lt hw
  · next hnotfull =>
    have hne : (w.cnt + 1).toNat ≠ n.toNat := fun he => hnotfull (BitVec.eq_of_toNat_eq he)
    show (w.cnt + 1).toNat < n.toNat
    omega

/-- A payload word leaves the window as it is or takes one window step. -/
theorem pipeStep_cnt_lt {c : PipeConfig} {r : PipeRegs} (hr : r.window.cnt.toNat < c.nAud.toNat) (x : Word) :
    (pipeStep c r x).1.window.cnt.toNat < c.nAud.toNat := by
  unfold pipeStep
  split
  · exact audStep_cnt_lt hr _ _
  · exact hr

theorem runSteps_audStep_cnt_lt {n : Half} (scale : Word) {w : Window} (hw : w.cnt.toNat < n.toNat) (xs : List Word) :
    (runSteps (audStep n scale) w xs).1.cnt.toNat < n.toNat :=
  runSteps_invariant (audStep n scale) (fun w' => w'.cnt.toNat < n.toNat) (fun _ v hw' => audStep_cnt_lt hw' scale v)
    xs w hw

theorem runSteps_pipeStep_cnt_lt {c : PipeConfig} {r : PipeRegs} (hr : r.window.cnt.toNat < c.nAud.toNat)
    (xs : List Word) : (runSteps (pipeStep c) r xs).1.window.cnt.toNat < c.nAud.toNat :=
  runSteps_invariant (pipeStep c) (fun r' => r'.window.cnt.toNat < c.nAud.toNat) (fun _ x hr' => pipeStep_cnt_lt hr' x)
    xs r hr

/-! ### The step -/

/-- Every meaning leaves legal registers: the data commands write at most FM_PREV and the window, WRREG only a legal
word. -/
theorem exec_legal {i : Instr} {s t : State} (h : s.Legal) (ht : exec i s = .next t) : t.Legal := by
  have hcnt : s.cnt.toNat < s.nAud.toNat := by
    obtain ⟨-, -, -, -, -, -, hlt, -, -⟩ := h
    exact hlt
  cases i with
  | nop =>
    rw [exec, execNop] at ht
    exact issue_legal h ht (fun _ => h)
  | iqdec =>
    rw [exec, execIqdec] at ht
    exact issue_legal h ht (fun _ => h)
  | fmdem =>
    rw [exec, execFmdem] at ht
    exact issue_legal h ht (fun _ => h)
  | amdem =>
    rw [exec, execAmdem] at ht
    exact issue_legal h ht (fun _ => h)
  | auddec =>
    rw [exec, execAuddec] at ht
    exact issue_legal h ht (fun _ => setWindow_legal h (runSteps_audStep_cnt_lt _ hcnt _))
  | pipe =>
    rw [exec, execPipe] at ht
    exact issue_legal h ht (fun _ => writePipe_legal h (runSteps_pipeStep_cnt_lt hcnt _))
  | rdreg idx =>
    rw [exec, execRdreg] at ht
    refine issue_legal h ht (fun _ => ?_)
    cases regOf idx <;> exact h
  | wrreg idx =>
    rw [exec, execWrreg] at ht
    refine issue_legal h ht (fun hc => ?_)
    obtain ⟨r, v, hr, hv, hl⟩ := check_wrreg_ok hc
    simp only [hr, hv]
    exact writeReg_legal h hl
  | rstst =>
    rw [exec, execRstst] at ht
    exact issue_legal h ht (fun _ => newStream_legal h)

/-- Settles O17, by the cases of a step: each move of the host keeps every register legal. -/
theorem everyStepKeepsRegistersLegal : Obligations.EveryStepKeepsRegistersLegal := by
  intro s t h ht
  rcases step_cases s t ht with ⟨-, rfl⟩ | ⟨rest, -, rfl⟩ | ⟨c, rest, i, -, -, hexec⟩ | ⟨c, rest, code, -, -, rfl⟩
  case inl => exact h
  case inr.inl => exact reset_legal
  all_goals have hpresent : ({ s with host := rest }.present c).Legal := h
  case inr.inr.inl => exact exec_legal hpresent hexec
  case inr.inr.inr => exact complete_legal hpresent code []

/-! ### Reset values and register access -/

/-- Settles O15: the words of R24, register by register. -/
theorem resetStateHoldsTheResetValues : Obligations.ResetStateHoldsTheResetValues :=
  ⟨rfl, rfl, rfl, rfl, rfl, rfl, rfl, rfl, rfl⟩

/-- Settles O19: each assigned index names its register, and a mask of its field bits is a remainder. -/
theorem rdregAnswersTheRegister : Obligations.RdregAnswersTheRegister := by
  intro s idx hidx hp
  rcases regOf_cases idx with ⟨rfl, hr⟩ | ⟨rfl, hr⟩ | ⟨rfl, hr⟩ | ⟨rfl, hr⟩ | ⟨rfl, hr⟩ | ⟨rfl, hr⟩ | ⟨rfl, hr⟩ |
      ⟨rfl, hr⟩ | ⟨rfl, hr⟩ | ⟨hunassigned, -⟩
  on_goal 10 => exact absurd hidx hunassigned.not_ge
  all_goals
    rw [execRdreg_eq hr hp, readValue_eq]
    simp only [State.stored, fieldWidth, BitVec.toNat_mod_cancel]
    rfl

/-- Settles O21: AUD_GAIN takes every word, IQ_N and MODE the words that are legal for them. -/
theorem wrregStoresConfiguration : Obligations.WrregStoresConfiguration := by
  intro s v hp hf
  refine ⟨fun hv => ?iqN, ?audGain, fun hv => ?mode⟩
  case iqN => exact execWrreg_eq (r := .iqN) rfl hp hf (legalWrite_iqN_iff.2 hv)
  case audGain => exact execWrreg_eq (r := .audGain) rfl hp hf rfl
  case mode => exact execWrreg_eq (r := .mode) rfl hp hf (legalWrite_mode_iff.2 hv)

/-- Settles O22: the word's legality decides between the write, which clears the window, and BAD_VALUE. -/
theorem wrregAudNClearsTheWindow : Obligations.WrregAudNClearsTheWindow := by
  intro s v hp hf
  split
  · next hv => exact execWrreg_eq (r := .audN) rfl hp hf (legalWrite_audN_iff.2 hv)
  · next hv => exact execWrreg_badValue (r := .audN) rfl hp hf (Bool.eq_false_iff.2 (mt legalWrite_audN_iff.1 hv))

/-- Settles O23: three of the four take every word, AUD_CNT one below the audio factor. -/
theorem wrregStoresStreamContext : Obligations.WrregStoresStreamContext := by
  intro s v hp hf
  refine ⟨?fmPrevRe, ?fmPrevIm, ?audAcc, fun hv => ?audCnt⟩
  case fmPrevRe => exact execWrreg_eq (r := .fmPrevRe) rfl hp hf rfl
  case fmPrevIm => exact execWrreg_eq (r := .fmPrevIm) rfl hp hf rfl
  case audAcc => exact execWrreg_eq (r := .audAcc) rfl hp hf rfl
  case audCnt => exact execWrreg_eq (r := .audCnt) rfl hp hf (legalWrite_audCnt_iff.2 hv)

/-- Settles O24: bit 8 of the two legal words decides whether ERR_STICKY is cleared. -/
theorem wrregStatusClearsOnlyTheStickyBit : Obligations.WrregStatusClearsOnlyTheStickyBit := by
  intro s hf
  refine ⟨fun hp => ?clear, fun hp => ?keep⟩
  case clear => exact execWrreg_eq (r := .status) rfl hp hf rfl
  case keep => exact execWrreg_eq (r := .status) rfl hp hf rfl

end Sys2Proof.Machine
end

section
/-! PROOFS. The statements on the host's side and the two streams (20_memory.md): one move a step, under a `max_payload`
that never changes, and the bytes that packed IQ words carry. -/

namespace Sys2Proof.Machine

/-! ### The host's moves and `max_payload` (R28, R30) -/

/-- What the model adds to the registers and a command leaves alone: the host's moves and `max_payload` (log 1, log 4). -/
def SameHostSide (s t : State) : Prop := t.host = s.host ∧ t.maxPayload = s.maxPayload

theorem sameHostSide_refl (s : State) : SameHostSide s s := ⟨rfl, rfl⟩

theorem sameHostSide_writeReg (s : State) (r : Reg) (v : Word) : SameHostSide s (s.writeReg r v) := by
  cases r with
  | status =>
    rw [writeReg_status]
    split
    · exact ⟨rfl, rfl⟩
    · exact ⟨rfl, rfl⟩
  | _ => exact ⟨rfl, rfl⟩

theorem sameHostSide_writePipe (s : State) (c : PipeConfig) (r : PipeRegs) : SameHostSide s (s.writePipe c r) := by
  unfold State.writePipe
  split
  · exact ⟨rfl, rfl⟩
  · exact ⟨rfl, rfl⟩

/-- Completion and rejection leave the host's side as the command's effect does. -/
theorem issue_sameHostSide {s t : State} {i : Instr} {run : State → State × List Word} (h : s.issue i run = .next t)
    (hrun : SameHostSide s (run s).1) : SameHostSide s t := by
  rcases issue_cases s i run with ⟨-, hi⟩ | ⟨-, hi⟩
  · obtain rfl : _ = t := Host.Outcome.next.inj (hi.symm.trans h)
    exact hrun
  · obtain rfl : _ = t := Host.Outcome.next.inj (hi.symm.trans h)
    exact sameHostSide_refl s

/-- No meaning makes or drops a move of the host, or changes `max_payload`. -/
theorem exec_sameHostSide {i : Instr} {s t : State} (h : exec i s = .next t) : SameHostSide s t := by
  cases i with
  | nop =>
    rw [exec, execNop] at h
    exact issue_sameHostSide h (sameHostSide_refl s)
  | iqdec =>
    rw [exec, execIqdec] at h
    exact issue_sameHostSide h (sameHostSide_refl s)
  | fmdem =>
    rw [exec, execFmdem] at h
    exact issue_sameHostSide h ⟨rfl, rfl⟩
  | amdem =>
    rw [exec, execAmdem] at h
    exact issue_sameHostSide h (sameHostSide_refl s)
  | auddec =>
    rw [exec, execAuddec] at h
    exact issue_sameHostSide h ⟨setWindow_host s _, setWindow_maxPayload s _⟩
  | pipe =>
    rw [exec, execPipe] at h
    exact issue_sameHostSide h (sameHostSide_writePipe s _ _)
  | rdreg idx =>
    rw [exec, execRdreg] at h
    refine issue_sameHostSide h ?_
    cases regOf idx <;> exact sameHostSide_refl s
  | wrreg idx =>
    rw [exec, execWrreg] at h
    refine issue_sameHostSide h ?_
    split
    · exact sameHostSide_writeReg s _ _
    · exact sameHostSide_refl s
  | rstst =>
    rw [exec, execRstst] at h
    exact issue_sameHostSide h ⟨newStream_host s, newStream_maxPayload s⟩

/-- Settles O13, by the cases of a step: each takes the move it makes, and what the move does leaves the rest alone. -/
theorem stepTakesOneMove : Obligations.StepTakesOneMove := by
  intro s t h
  rcases step_cases s t h with ⟨hs, rfl⟩ | ⟨rest, hs, rfl⟩ | ⟨c, rest, i, hs, -, hexec⟩ | ⟨c, rest, code, hs, -, rfl⟩
  case inl => simp [hs]
  case inr.inl => simp [hs]
  case inr.inr.inl => simpa [SameHostSide, hs] using exec_sameHostSide hexec
  case inr.inr.inr => simp [hs]

/-! ### Halves and bytes of a word (R33, R34, R48) -/

section IqPair
variable (i q : Half)

@[simp] theorem lowHalf_iqPair : lowHalf (iqPair i q) = i := BitVec.extractLsb'_append_eq_right

@[simp] theorem highHalf_iqPair : highHalf (iqPair i q) = q := BitVec.extractLsb'_append_eq_left

theorem toInt_iqI (w : Word) : (iqI w).toInt = (lowHalf w).toInt := toInt_sext32 _

theorem toInt_iqQ (w : Word) : (iqQ w).toInt = (highHalf w).toInt := toInt_sext32 _

/-- The four bytes of an IQ pair word are the two bytes of I and then the two bytes of Q. -/
theorem bytesOfWord_iqPair : bytesOfWord (iqPair i q) = bytesOfHalf i ++ bytesOfHalf q := by
  have hI (k : Nat) (hk : k + 8 ≤ 16) : (iqPair i q).extractLsb' k 8 = i.extractLsb' k 8 :=
    BitVec.extractLsb'_append_eq_of_add_le hk
  have hQ (k : Nat) (hk : 16 ≤ k) : (iqPair i q).extractLsb' k 8 = q.extractLsb' (k - 16) 8 :=
    BitVec.extractLsb'_append_eq_of_le hk
  rw [bytesOfWord, hI 0 (by decide), hI 8 (by decide), hQ 16 (by decide), hQ 24 (by decide)]
  rfl

end IqPair

/-- A word is its four bytes put together again (R33). -/
theorem wordOfBytes_bytesOfWord (w : Word) :
    wordOfBytes (w.extractLsb' 0 8) (w.extractLsb' 8 8) (w.extractLsb' 16 8) (w.extractLsb' 24 8) = w := by
  unfold wordOfBytes
  rw [BitVec.extractLsb'_append_extractLsb'_eq_extractLsb' (show 24 = 16 + 8 from rfl),
    BitVec.extractLsb'_append_extractLsb'_eq_extractLsb' (show 16 = 8 + 8 from rfl),
    BitVec.extractLsb'_append_extractLsb'_eq_extractLsb' (show 8 = 0 + 8 from rfl)]
  exact BitVec.extractLsb'_eq_self

/-! ### The streams (R33, R34) -/

/-- Pair by pair, packing keeps the bytes; what is left over is no sample or one unpaired I. -/
theorem bytesOfWords_packRaw (raw : List Half) :
    bytesOfWords (packRaw raw) = bytesOfHalves (raw.take (2 * (raw.length / 2))) := by
  induction raw using packRaw.induct with
  | case1 i q rest ih =>
    have hlen : 2 * ((i :: q :: rest).length / 2) = 2 * (rest.length / 2) + 2 := by
      simp only [List.length_cons]; omega
    rw [hlen, packRaw, bytesOfWords, bytesOfWord_iqPair, ih]
    simp only [List.take_succ_cons, bytesOfHalves, List.append_assoc]
  | case2 raw hunpaired =>
    match raw, hunpaired with
    | [], _ => rfl
    | [_], _ => simp [packRaw, bytesOfWords, bytesOfHalves]
    | i :: q :: rest, hunpaired => exact absurd rfl (hunpaired i q rest)

theorem wordsOfBytes_bytesOfWords (ws : List Word) : wordsOfBytes (bytesOfWords ws) = ws := by
  induction ws with
  | nil => rfl
  | cons w ws ih =>
    calc wordsOfBytes (bytesOfWords (w :: ws))
        = wordOfBytes (w.extractLsb' 0 8) (w.extractLsb' 8 8) (w.extractLsb' 16 8) (w.extractLsb' 24 8) ::
            wordsOfBytes (bytesOfWords ws) := rfl
      _ = w :: ws := by rw [wordOfBytes_bytesOfWord, ih]

/-- Settles O60: the packed bytes by pairs, the words by their bytes, and each pair by the halves of its word. -/
theorem packedWordsKeepTheByteStream : Obligations.PackedWordsKeepTheByteStream := by
  refine ⟨bytesOfWords_packRaw, wordsOfBytes_bytesOfWords, fun i q => ⟨lowHalf_iqPair i q, highHalf_iqPair i q, ?_, ?_⟩⟩
  · rw [toInt_iqI, lowHalf_iqPair]
  · rw [toInt_iqQ, highHalf_iqPair]

end Sys2Proof.Machine
end

section
/-! PROOFS. The statements on the command encoding (30_encoding.md): the fields of a word, the table of operations,
decoding against encoding, the two rejections by the word alone, and the pseudo-instructions that write registers. -/

namespace Sys2Proof.Machine

/-! ### The fields of a command word (R43) -/

section Fields
variable (w : Word)

theorem toNat_opField : (opField w).toNat = w.toNat % 16 := by
  simp [opField]

theorem toNat_regField : (regField w).toNat = w.toNat / 16 % 256 := by
  simp [regField, Nat.shiftRight_eq_div_pow]

theorem toNat_rsvdField : (rsvdField w).toNat = w.toNat / 4096 := by
  have := w.isLt
  simp only [rsvdField, BitVec.extractLsb'_toNat, Nat.shiftRight_eq_div_pow]
  omega

theorem regField_eq_zero_iff : regField w = 0 ↔ w.toNat / 16 % 256 = 0 := by
  rw [← BitVec.toNat_inj, toNat_regField]; rfl

theorem rsvdField_eq_zero_iff : rsvdField w = 0 ↔ w.toNat / 4096 = 0 := by
  rw [← BitVec.toNat_inj, toNat_rsvdField]; rfl

theorem regField_eq_ofNat : regField w = BitVec.ofNat 8 (w.toNat / 16 % 256) := by
  rw [← toNat_regField, BitVec.ofNat_toNat, BitVec.setWidth_eq]

/-- A word is its three fields put together again: no bit lies outside them. -/
theorem append_fields : (rsvdField w ++ regField w) ++ opField w = w := by
  unfold rsvdField regField opField
  rw [BitVec.extractLsb'_append_extractLsb'_eq_extractLsb' (show 12 = 4 + 8 from rfl),
    BitVec.extractLsb'_append_extractLsb'_eq_extractLsb' (show 4 = 0 + 4 from rfl)]
  exact BitVec.extractLsb'_eq_self

end Fields

/-- The per-instruction facts of `EncodedFields`, for every instruction at once. -/
theorem encodedFields (i : Instr) : Laws.EncodedFields.Statement i := by
  cases i with
  | nop => exact Laws.EncodedFields.nop
  | iqdec => exact Laws.EncodedFields.iqdec
  | fmdem => exact Laws.EncodedFields.fmdem
  | amdem => exact Laws.EncodedFields.amdem
  | auddec => exact Laws.EncodedFields.auddec
  | pipe => exact Laws.EncodedFields.pipe
  | rdreg idx => exact Laws.EncodedFields.rdreg idx
  | wrreg idx => exact Laws.EncodedFields.wrreg idx
  | rstst => exact Laws.EncodedFields.rstst

/-! ### The table of operations (R45) -/

/-- The rows of the table, in the order of their OP codes. -/
def instrTable (reg : BitVec 8) : List Instr :=
  [.nop, .iqdec, .fmdem, .amdem, .auddec, .pipe, .rdreg reg, .wrreg reg, .rstst]

theorem instrOf_eq_getElem? (op : BitVec 4) (reg : BitVec 8) : instrOf op reg = (instrTable reg)[op.toNat]? := by
  unfold instrOf
  generalize op.toNat = n
  match n with
  | 0 | 1 | 2 | 3 | 4 | 5 | 6 | 7 | 8 => rfl
  | _ + 9 => rfl

theorem instrOf_eq_none_iff {op : BitVec 4} {reg : BitVec 8} : instrOf op reg = none ↔ 9 ≤ op.toNat := by
  rw [instrOf_eq_getElem?, List.getElem?_eq_none_iff]; rfl

/-- The row an instruction stands in: the one of its OP code, with its operand in the REG field if it has one. -/
theorem instrOf_eq_some_iff {op : BitVec 4} {reg : BitVec 8} {i : Instr} :
    instrOf op reg = some i ↔ i.op = op ∧ (i.usesReg = true → i.reg = reg) := by
  constructor
  · intro h
    unfold instrOf at h
    split at h
    all_goals cases h
    all_goals next hop => exact ⟨BitVec.eq_of_toNat_eq hop.symm, by simp [Instr.usesReg, Instr.reg]⟩
  · rintro ⟨rfl, hreg⟩
    cases i with
    | rdreg idx | wrreg idx => rw [← hreg rfl]; rfl
    | _ => rfl

/-- RDREG and WRREG are the operations that use their REG field. -/
theorem usesReg_iff (i : Instr) : i.usesReg = true ↔ i.op.toNat = 6 ∨ i.op.toNat = 7 := by
  cases i <;> simp [Instr.usesReg, Instr.op]

theorem reg_eq_zero {i : Instr} (h : i.usesReg = false) : i.reg = 0 := by
  cases i with
  | rdreg idx | wrreg idx => cases h
  | _ => rfl

/-- The reserved-bit test on REG (R52), for the row of the table that holds `i`. -/
theorem usesReg_or_eq_zero_iff {i : Instr} {reg : BitVec 8} (h : i.usesReg = true → i.reg = reg) :
    (i.usesReg = true ∨ reg = 0) ↔ reg = i.reg := by
  cases huses : i.usesReg with
  | true => simp [h huses]
  | false => simp [reg_eq_zero huses]

/-! ### Decoding (R46) -/

section Decode
variable {w : Word} {i : Instr}

/-- A word of a reserved OP code is ILLEGAL_OP, whatever its other bits. -/
theorem decode_eq_illegalOp (h : 9 ≤ w.toNat % 16) : decode w = .error .illegalOp := by
  rw [← toNat_opField] at h
  rw [decode, instrOf_eq_none_iff.2 h]

/-- A word of a legal OP code stands in a row of the table. -/
theorem exists_instrOf (h : w.toNat % 16 < 9) : ∃ i, instrOf (opField w) (regField w) = some i := by
  rw [← toNat_opField] at h
  exact Option.ne_none_iff_exists'.1 fun hnone => h.not_ge (instrOf_eq_none_iff.1 hnone)

/-- A word of a legal OP code is its row's operation where every reserved bit is 0, and RSVD_BITS elsewhere. -/
theorem decode_of_instrOf (h : instrOf (opField w) (regField w) = some i) :
    decode w = if rsvdField w = 0 ∧ (i.usesReg = true ∨ regField w = 0) then .ok i else .error .rsvdBits := by
  by_cases hrsvd : rsvdField w = 0
  · cases huses : i.usesReg <;> simp [decode, h, hrsvd, huses]
  · rw [if_neg (mt And.left hrsvd)]
    simp only [decode, h]
    exact if_pos hrsvd

/-- `decode_of_instrOf` with the fields taken out by arithmetic. -/
theorem decode_of_instrOf_toNat (h : instrOf (opField w) (regField w) = some i) :
    decode w = if w.toNat / 4096 = 0 ∧ (w.toNat % 16 = 6 ∨ w.toNat % 16 = 7 ∨ w.toNat / 16 % 256 = 0)
      then .ok i else .error .rsvdBits := by
  obtain ⟨hop, -⟩ := instrOf_eq_some_iff.1 h
  rw [decode_of_instrOf h]
  simp only [rsvdField_eq_zero_iff, regField_eq_zero_iff, usesReg_iff, hop, toNat_opField, or_assoc]

theorem decode_eq_rsvdBits (hop : w.toNat % 16 < 9)
    (hbits : w.toNat / 4096 ≠ 0 ∨ (w.toNat % 16 ≠ 6 ∧ w.toNat % 16 ≠ 7 ∧ w.toNat / 16 % 256 ≠ 0)) :
    decode w = .error .rsvdBits := by
  obtain ⟨i, hi⟩ := exists_instrOf hop
  rw [decode_of_instrOf_toNat hi, if_neg (by omega)]

/-- A word decodes to an instruction exactly when its fields are the instruction's. -/
theorem decode_eq_ok_iff : decode w = .ok i ↔ opField w = i.op ∧ regField w = i.reg ∧ rsvdField w = 0 := by
  constructor
  · intro h
    cases hrow : instrOf (opField w) (regField w) with
    | none => rw [decode, hrow] at h; cases h
    | some j =>
      rw [decode_of_instrOf hrow] at h
      split at h
      case isFalse => cases h
      case isTrue hlegal =>
        cases h
        obtain ⟨hop, hreg⟩ := instrOf_eq_some_iff.1 hrow
        obtain ⟨hrsvd, hused⟩ := hlegal
        exact ⟨hop.symm, (usesReg_or_eq_zero_iff hreg).1 hused, hrsvd⟩
  · rintro ⟨hop, hreg, hrsvd⟩
    have hrow : instrOf (opField w) (regField w) = some i :=
      instrOf_eq_some_iff.2 ⟨hop.symm, fun _ => hreg.symm⟩
    have hused : i.usesReg = true ∨ regField w = 0 := (usesReg_or_eq_zero_iff fun _ => hreg.symm).2 hreg
    rw [decode_of_instrOf hrow, if_pos ⟨hrsvd, hused⟩]

end Decode

@[simp] theorem decode_encode (i : Instr) : decode (encode i) = .ok i := by
  obtain ⟨hop, hreg, hrsvd, -⟩ := encodedFields i
  exact decode_eq_ok_iff.2 ⟨hop, hreg, hrsvd⟩

/-- Settles O2: an instruction's own word holds the fields that decoding asks for. -/
theorem decodeOfEncodeIsTheInstruction : Obligations.DecodeOfEncodeIsTheInstruction := decode_encode

/-- Settles O3: the fields of a word that decodes are the instruction's, and they are the whole word. -/
theorem encodeOfDecodeIsTheWord : Obligations.EncodeOfDecodeIsTheWord := by
  intro w i h
  obtain ⟨hop, hreg, hrsvd⟩ := decode_eq_ok_iff.1 h
  calc encode i = (rsvdField w ++ regField w) ++ opField w := by rw [hop, hreg, hrsvd]; rfl
    _ = w := append_fields w

/-- Settles O1: a reserved OP code stands in no row of the table; a legal one stands in the row of its number, and the
reserved bits decide. -/
theorem decodeClassifiesEveryWord : Obligations.DecodeClassifiesEveryWord := by
  intro w op reg rsvd
  split
  case isTrue hop => exact decode_eq_illegalOp hop
  case isFalse hop =>
    have hlegal : w.toNat % 16 < 9 := not_le.1 hop
    split
    case isTrue hrsvd => exact decode_eq_rsvdBits hlegal (Or.inl hrsvd)
    case isFalse hrsvd =>
      split
      case isTrue hreg => exact decode_eq_rsvdBits hlegal (Or.inr hreg)
      case isFalse hreg =>
        obtain ⟨i, hrow⟩ := exists_instrOf hlegal
        refine ⟨i, ?decodes, ?row⟩
        case decodes => rw [decode_of_instrOf_toNat hrow, if_pos (by omega)]
        case row => rwa [instrOf_eq_getElem?, toNat_opField, regField_eq_ofNat] at hrow

/-- Settles O4: each written word is the encoding of what it stands for. -/
theorem writtenWordsDecode : Obligations.WrittenWordsDecode :=
  ⟨decode_encode .nop, decode_encode .iqdec, decode_encode .fmdem, decode_encode .amdem, decode_encode .auddec,
    decode_encode .pipe, decode_encode (.rdreg 0x08), decode_encode (.wrreg 0x07), decode_encode .rstst⟩

/-! ### Words rejected by their bits (R51, R52) -/

/-- Settles O6: the word is ILLEGAL_OP, and a rejection writes STATUS alone. -/
theorem illegalOpIsRejected : Obligations.IllegalOpIsRejected := by
  intro s c rest hhost hop
  exact step_undecoded hhost (decode_eq_illegalOp hop)

/-- Settles O7: the word is RSVD_BITS, and a rejection writes STATUS alone. -/
theorem reservedBitsAreRejected : Obligations.ReservedBitsAreRejected := by
  intro s c rest hhost hop hbits
  exact step_undecoded hhost (decode_eq_rsvdBits hop hbits)

/-! ### Register writes in sequence (R54, R94) -/

/-- The state after the host's next move, where that is an accepted `WRREG` of `v` to `r`. -/
def State.afterWrite (s : State) (r : Reg) (v : Word) : State :=
  ({ s with host := s.host.tail, payload := [v] }.writeReg r v).complete .ok []

/-- The state after a sequence of accepted writes. -/
def State.afterWrites : State → List (Reg × Word) → State
  | s, [] => s
  | s, (r, v) :: ws => (s.afterWrite r v).afterWrites ws

/-- Each word is legal for its register once the writes before it are made. -/
def State.LegalWrites : State → List (Reg × Word) → Prop
  | _, [] => True
  | s, (r, v) :: ws => s.legalWrite r v = true ∧ (s.afterWrite r v).LegalWrites ws

/-- The commands of a sequence of writes. -/
def writeCommands (ws : List (Reg × Word)) : List Command := ws.map fun w => cmdWrite w.1 w.2

theorem afterWrite_host (s : State) (r : Reg) (v : Word) : (s.afterWrite r v).host = s.host.tail :=
  (sameHostSide_writeReg { s with host := s.host.tail, payload := [v] } r v).1

theorem afterWrite_maxPayload (s : State) (r : Reg) (v : Word) : (s.afterWrite r v).maxPayload = s.maxPayload :=
  (sameHostSide_writeReg { s with host := s.host.tail, payload := [v] } r v).2

/-- The payload bound is the same before and after a write. -/
theorem afterWrite_fits {s : State} {len : Nat} (hf : s.fits len) (r : Reg) (v : Word) :
    (s.afterWrite r v).fits len := by
  rwa [State.fits, tooLong_eq_any, afterWrite_maxPayload, ← tooLong_eq_any]

theorem step_cmdWrite {s : State} {r : Reg} {v : Word} {rest : List HostMove}
    (hhost : s.host = .command (cmdWrite r v) :: rest) (hf : s.fits 1) (hl : s.legalWrite r v = true) :
    step s = .next (s.afterWrite r v) := by
  have hl' : ({ s with host := rest }.present (cmdWrite r v)).legalWrite r v = true := by cases r <;> exact hl
  rw [step_decoded hhost (decode_encode _), State.afterWrite, hhost]
  exact execWrreg_eq (regOf_regIndex r) rfl hf hl'

theorem run_succ {s t : State} (k : Nat) (h : step s = .next t) : core.run (k + 1) s = core.run k t := by
  have h' : core.step s = .next t := h
  simp only [Host.Core.run, h']

/-- A run of as many steps as the host's next moves write registers makes these writes, one after the other. -/
theorem run_writes {s : State} {ws : List (Reg × Word)} {rest : List HostMove}
    (hhost : s.host = issues (writeCommands ws) rest) (hf : s.fits 1) (hl : s.LegalWrites ws) :
    core.run ws.length s = .next (s.afterWrites ws) ∧ (s.afterWrites ws).host = rest := by
  induction ws generalizing s with
  | nil => exact ⟨rfl, hhost⟩
  | cons w ws ih =>
    obtain ⟨r, v⟩ := w
    obtain ⟨hnow, hlater⟩ := hl
    have hhost' : (s.afterWrite r v).host = issues (writeCommands ws) rest := by rw [afterWrite_host, hhost]; rfl
    rw [List.length_cons, run_succ _ (step_cmdWrite hhost hf hnow)]
    exact ih hhost' (afterWrite_fits hf r v) hlater

/-- The read value of a register whose reserved bits are 0 is its stored word. -/
theorem readValue_eq_stored {s : State} {r : Reg} (h : (s.stored r).toNat < 2 ^ fieldWidth r) :
    s.readValue r = s.stored r := by
  rw [readValue_eq, Nat.mod_eq_of_lt h, BitVec.ofNat_toNat, BitVec.setWidth_eq]

section LegalCounter
variable {s : State} (h : s.Legal)
include h

/-- In a legal state AUD_CNT is, as a whole word, below the audio factor. -/
theorem audCnt_lt : s.audCnt.toNat < s.audN.toNat % 65536 := by
  obtain ⟨-, -, -, -, -, hcnt, hlt, -⟩ := h
  rw [highHalf_eq_zero_iff] at hcnt
  rwa [State.cnt, State.nAud, toNat_lowHalf, toNat_lowHalf, Nat.mod_eq_of_lt hcnt] at hlt

/-- What `SAVECTX` reads in a legal state is the stream context whole: it has no reserved bit set. -/
theorem readValue_context :
    s.readValue .fmPrevRe = s.fmPrevRe ∧ s.readValue .fmPrevIm = s.fmPrevIm ∧ s.readValue .audAcc = s.audAcc ∧
    s.readValue .audCnt = s.audCnt := by
  have hcnt : s.audCnt.toNat < 2 ^ 16 := (audCnt_lt h).trans (Nat.mod_lt _ (by decide))
  exact ⟨readValue_eq_stored s.fmPrevRe.isLt, readValue_eq_stored s.fmPrevIm.isLt, readValue_eq_stored s.audAcc.isLt,
    readValue_eq_stored hcnt⟩

end LegalCounter

/-- Settles O27: the saved counter is below the audio factor that both states hold, so all four writes are accepted. -/
theorem restoredContextIsTheSavedOne : Obligations.RestoredContextIsTheSavedOne := by
  intro s u rest hs haudN hf hhost
  obtain ⟨hre, him, hacc, hcnt⟩ := readValue_context hs
  rw [hre, him, hacc, hcnt] at hhost
  have hbelow : s.audCnt.toNat < u.audN.toNat % 65536 := by rw [haudN]; exact audCnt_lt hs
  have hlegal : u.LegalWrites
      [(.fmPrevRe, s.fmPrevRe), (.fmPrevIm, s.fmPrevIm), (.audAcc, s.audAcc), (.audCnt, s.audCnt)] :=
    ⟨rfl, rfl, rfl, legalWrite_audCnt_iff.2 hbelow, trivial⟩
  obtain ⟨hrun, hrest⟩ := run_writes hhost hf hlegal
  refine ⟨_, hrun, ?context, ?configuration, hrest⟩
  case context => simp [State.context, State.afterWrites, State.afterWrite]
  case configuration => simp [State.configuration, State.afterWrites, State.afterWrite]

/-- Settles O28: the bounds make all four writes legal, and the write to AUD_N empties the window. -/
theorem configSetsTheConfiguration : Obligations.ConfigSetsTheConfiguration := by
  intro s niq naud gain mode rest hf hniq hniq' hnaud hnaud' hmode hhost
  have hlegal : s.LegalWrites [(.iqN, niq), (.audN, naud), (.audGain, gain), (.mode, mode)] :=
    ⟨legalWrite_iqN_iff.2 ⟨hniq, hniq'⟩, legalWrite_audN_iff.2 ⟨hnaud, hnaud'⟩, rfl, legalWrite_mode_iff.2 hmode,
      trivial⟩
  obtain ⟨hrun, hrest⟩ := run_writes hhost hf hlegal
  exact ⟨_, hrun, rfl, rfl, hrest⟩

end Sys2Proof.Machine
end

section
/-! PROOFS. The statements on the IQ decimator (40_iq_decimator.md): what the summation registers hold while a group is
added, the samples that `iqBlock` emits group by group, and the sums of the groups against the sum of the block. -/

namespace Sys2Proof.Machine

/-! ### Exact sums of halves (R57) -/

/-- The exact sum of one half (I or Q) over a list of pairs. -/
def halfSum (half : Word → Half) (pairs : List Word) : Int := (pairs.map fun w => (half w).toInt).sum

/-- The pairs of group `j` of a block under the factor `n`. -/
def groupOf (n j : Nat) (block : List Word) : List Word := (block.drop (j * n)).take n

theorem groupSum_eq (half : Word → Half) (n j : Nat) (block : List Word) :
    groupSum half n j block = halfSum half (groupOf n j block) := rfl

section HalfSum
variable (half : Word → Half)

theorem halfSum_append (xs ys : List Word) : halfSum half (xs ++ ys) = halfSum half xs + halfSum half ys := by
  rw [halfSum, List.map_append, List.sum_append]; rfl

theorem halfSum_singleton (w : Word) : halfSum half [w] = (half w).toInt := by simp [halfSum]

/-- Each pair adds a 16-bit two's-complement number. -/
theorem halfSum_bounds (pairs : List Word) :
    -32768 * (pairs.length : Int) ≤ halfSum half pairs ∧ halfSum half pairs ≤ 32767 * (pairs.length : Int) := by
  induction pairs with
  | nil => simp [halfSum]
  | cons w pairs ih =>
    have hlo := BitVec.le_toInt (half w)
    have hhi := BitVec.toInt_lt (x := half w)
    rw [← List.singleton_append, halfSum_append, halfSum_singleton, List.singleton_append, List.length_cons]
    omega

/-- What a summation register holds after these pairs were added to 0. -/
def halfRegister (pairs : List Word) : Word := pairs.foldl (fun a w => a + sext32 (half w)) 0

theorem halfRegister_append_singleton (pairs : List Word) (w : Word) :
    halfRegister half (pairs ++ [w]) = halfRegister half pairs + sext32 (half w) := by
  rw [halfRegister, List.foldl_append]; rfl

/-- R57: as many pairs as a factor can ask for never overflow the register. -/
theorem toInt_halfRegister {pairs : List Word} (h : pairs.length ≤ 65535) :
    (halfRegister half pairs).toInt = halfSum half pairs := by
  induction pairs using List.reverseRecOn with
  | nil => rfl
  | append_singleton pairs w ih =>
    have hsum : halfSum half (pairs ++ [w]) = halfSum half pairs + (half w).toInt := by
      rw [halfSum_append, halfSum_singleton]
    obtain ⟨hlo, hhi⟩ := halfSum_bounds half (pairs ++ [w])
    rw [List.length_append, List.length_singleton] at h hlo hhi
    rw [halfRegister_append_singleton, BitVec.toInt_add, ih (by omega), toInt_sext32, ← hsum]
    exact Int.bmod_eq_of_le (by omega) (by omega)

end HalfSum

/-! ### One group under `iq_step` (R55) -/

/-- The summation registers after the pairs of a group that is not complete yet. -/
def SumRegs.after (pairs : List Word) : SumRegs :=
  ⟨halfRegister lowHalf pairs, halfRegister highHalf pairs, BitVec.ofNat 16 pairs.length⟩

@[simp] theorem SumRegs.after_nil : SumRegs.after [] = SumRegs.zero := rfl

/-- The exact sums of a group, converted: the complex sample it gives. -/
def groupSample (group : List Word) : Sample := (f32FromS32 (halfSum lowHalf group), f32FromS32 (halfSum highHalf group))

theorem sumSample_halfRegister {group : List Word} (h : group.length ≤ 65535) :
    sumSample (halfRegister lowHalf group) (halfRegister highHalf group) = groupSample group := by
  rw [sumSample, toInt_halfRegister _ h, toInt_halfRegister _ h, groupSample]

section Factor
variable {n : Half}

/-- Both cases of `iq_step` on an incomplete group: this pair completes it, or it is still incomplete. -/
theorem iqStep_after {pairs : List Word} (h : pairs.length < n.toNat) (w : Word) :
    iqStep n (SumRegs.after pairs) w =
      if pairs.length + 1 = n.toNat then (SumRegs.zero, [groupSample (pairs ++ [w])])
      else (SumRegs.after (pairs ++ [w]), []) := by
  have hn := n.isLt
  have hcount : BitVec.ofNat 16 pairs.length + 1 = BitVec.ofNat 16 (pairs ++ [w]).length := by
    rw [List.length_append, List.length_singleton, BitVec.ofNat_add]; rfl
  have hfull : BitVec.ofNat 16 (pairs ++ [w]).length = n ↔ pairs.length + 1 = n.toNat := by
    rw [← BitVec.toNat_inj, BitVec.toNat_ofNat, List.length_append, List.length_singleton, Nat.mod_eq_of_lt (by omega)]
  have hsample := sumSample_halfRegister (group := pairs ++ [w]) (by
    rw [List.length_append, List.length_singleton]; omega)
  rw [halfRegister_append_singleton, halfRegister_append_singleton] at hsample
  simp only [iqStep, SumRegs.after, iqI, iqQ, hcount, hfull, hsample, halfRegister_append_singleton]

/-- Pairs that do not complete the group are added and nothing is emitted. -/
theorem runSteps_iqStep_incomplete {pairs more : List Word} (h : (pairs ++ more).length < n.toNat) :
    runSteps (iqStep n) (SumRegs.after pairs) more = (SumRegs.after (pairs ++ more), []) := by
  induction more generalizing pairs with
  | nil => rw [List.append_nil, runSteps_nil]
  | cons w more ih =>
    rw [List.append_cons] at h
    have hlen : (pairs ++ [w]).length < n.toNat := by
      rw [List.length_append] at h; omega
    rw [List.length_append, List.length_singleton] at hlen
    rw [runSteps_cons, iqStep_after (by omega), if_neg hlen.ne, ih h, List.append_nil, ← List.append_cons]

/-- A group of `n` pairs is emitted as one sample, and the summation registers are zero again. -/
theorem runSteps_iqStep_group {group : List Word} (hn : 0 < n.toNat) (h : group.length = n.toNat) :
    runSteps (iqStep n) SumRegs.zero group = (SumRegs.zero, [groupSample group]) := by
  obtain ⟨earlier, w, rfl⟩ : ∃ earlier w, group = earlier ++ [w] :=
    List.eq_nil_or_concat' group |>.resolve_left (by rintro rfl; rw [List.length_nil] at h; omega)
  rw [List.length_append, List.length_singleton] at h
  rw [runSteps_append, ← SumRegs.after_nil, runSteps_iqStep_incomplete (by rw [List.nil_append]; omega),
    List.nil_append, runSteps_cons, iqStep_after (by omega), if_pos h]
  rfl

/-! ### A whole block (R56, R59) -/

/-- A block begins with its first `k + 1` groups: the first `k`, then group `k`. -/
theorem take_succ_groups (n k : Nat) (block : List Word) :
    block.take ((k + 1) * n) = block.take (k * n) ++ groupOf n k block := by
  rw [Nat.succ_mul, List.take_add, groupOf]

theorem length_groupOf {m j : Nat} {block : List Word} (h : (j + 1) * m ≤ block.length) :
    (groupOf m j block).length = m := by
  rw [Nat.succ_mul] at h
  rw [groupOf, List.length_take, List.length_drop]
  omega

/-- The samples of the first `k` groups of a block. -/
def groupSamples (m k : Nat) (block : List Word) : List Sample :=
  (List.range k).map fun j => groupSample (groupOf m j block)

theorem runSteps_iqStep_groups (hn : 0 < n.toNat) {k : Nat} {block : List Word} (h : k * n.toNat ≤ block.length) :
    runSteps (iqStep n) SumRegs.zero (block.take (k * n.toNat)) = (SumRegs.zero, groupSamples n.toNat k block) := by
  induction k with
  | zero => rw [Nat.zero_mul]; rfl
  | succ k ih =>
    have hk : k * n.toNat ≤ block.length := (Nat.mul_le_mul_right _ k.le_succ).trans h
    rw [take_succ_groups, runSteps_append, ih hk, runSteps_iqStep_group hn (length_groupOf h), groupSamples, groupSamples,
      List.range_succ, List.map_append]
    rfl

/-- What comes after the last complete group is shorter than a group. -/
theorem length_drop_groups (m : Nat) (block : List Word) :
    (block.drop (block.length / m * m)).length = block.length % m := by
  rw [List.length_drop]
  have := Nat.div_add_mod' block.length m
  omega

/-- The loop over a block: one sample per complete group, and the pairs after the last one in the summation registers. -/
theorem runSteps_iqStep_block (hn : 0 < n.toNat) (block : List Word) :
    runSteps (iqStep n) SumRegs.zero block =
      (SumRegs.after (block.drop (block.length / n.toNat * n.toNat)),
        groupSamples n.toNat (block.length / n.toNat) block) := by
  have hrest : ([] ++ block.drop (block.length / n.toNat * n.toNat)).length < n.toNat := by
    rw [List.nil_append, length_drop_groups]; exact Nat.mod_lt _ hn
  conv_lhs => rw [← List.take_append_drop (block.length / n.toNat * n.toNat) block]
  rw [runSteps_append, runSteps_iqStep_groups hn (Nat.div_mul_le_self _ _), ← SumRegs.after_nil,
    runSteps_iqStep_incomplete hrest, List.nil_append, List.append_nil]

theorem iqBlock_eq (hn : 0 < n.toNat) (block : List Word) :
    iqBlock n block = groupSamples n.toNat (block.length / n.toNat) block := by
  rw [iqBlock, runSteps_iqStep_block hn]

end Factor

/-- Samples as words: sample `j` is words `2j` and `2j+1` (R50). -/
theorem getElem?_sampleWords (zs : List Sample) (j : Nat) :
    (sampleWords zs)[2 * j]? = zs[j]?.map Prod.fst ∧ (sampleWords zs)[2 * j + 1]? = zs[j]?.map Prod.snd := by
  induction zs generalizing j with
  | nil => exact ⟨rfl, rfl⟩
  | cons z zs ih =>
    cases j with
    | zero => exact ⟨rfl, rfl⟩
    | succ j => exact ih j

/-- Settles O30: the output is the samples of the complete groups, word by word. -/
theorem iqdecEmitsGroupSums : Obligations.IqdecEmitsGroupSums := by
  intro s hf hn
  refine ⟨_, execIqdec_eq hf, ?length, fun j hj => ?words⟩
  case length => rw [length_sampleWords, iqBlock_eq hn, groupSamples, List.length_map, List.length_range]
  case words =>
    have hj' : (iqBlock s.nIq s.payload)[j]? = some (groupSample (groupOf s.nIq.toNat j s.payload)) := by
      rw [iqBlock_eq hn, groupSamples, List.getElem?_map, List.getElem?_range hj]; rfl
    obtain ⟨hre, him⟩ := getElem?_sampleWords (iqBlock s.nIq s.payload) j
    rw [hj'] at hre him
    exact ⟨hre, him⟩

/-- Settles O31: after a block the registers have added the pairs after its last complete group, fewer than the factor. -/
theorem summationRegistersHoldExactSums : Obligations.SummationRegistersHoldExactSums := by
  refine ⟨fun n block hn => ?registers, fun group half hlen => ?bounds⟩
  case registers =>
    have hmod := Nat.mod_lt block.length hn
    have hlt := n.isLt
    have hlen := length_drop_groups n.toNat block
    have hgroup : groupOf n.toNat (block.length / n.toNat) block = block.drop (block.length / n.toNat * n.toNat) :=
      List.take_of_length_le (by omega)
    simp only [runSteps_iqStep_block hn, groupSum_eq, hgroup]
    refine ⟨?_, toInt_halfRegister _ (by omega), toInt_halfRegister _ (by omega)⟩
    rw [SumRegs.after, hlen, BitVec.toNat_ofNat, Nat.mod_eq_of_lt (by omega)]
  case bounds =>
    obtain ⟨hlo, hhi⟩ := halfSum_bounds half group
    rw [halfSum] at hlo hhi
    exact ⟨toInt_halfRegister half hlen, by omega, by omega⟩

/-- Settles O32: a block shorter than the factor has no complete group. -/
theorem shortBlockGivesEmptyOutput : Obligations.ShortBlockGivesEmptyOutput := by
  intro s hf hlt
  rw [execIqdec_eq hf, iqBlock_eq (by omega), Nat.div_eq_of_lt hlt]
  rfl

/-- Whole groups leave the summation registers zero, and fewer pairs than the factor emit nothing after them. -/
theorem iqBlock_append_trailing {n : Half} {groups trailing : List Word} (hn : 0 < n.toNat)
    (hwhole : groups.length % n.toNat = 0) (hshort : trailing.length < n.toNat) :
    iqBlock n (groups ++ trailing) = iqBlock n groups := by
  have hdrop : groups.drop (groups.length / n.toNat * n.toNat) = [] := by
    rw [← List.length_eq_zero_iff, length_drop_groups, hwhole]
  have hzero : (runSteps (iqStep n) SumRegs.zero groups).1 = SumRegs.after [] := by
    rw [runSteps_iqStep_block hn, hdrop]
  have htrailing := runSteps_iqStep_incomplete (pairs := []) hshort
  rw [iqBlock, runSteps_append, hzero, htrailing, List.append_nil, iqBlock]

/-- Settles O33: neither IQDEC writes what the payload held, and both emit the samples of the whole groups. -/
theorem trailingPairsAreDiscarded : Obligations.TrailingPairsAreDiscarded := by
  intro s groups trailing hn hf hwhole hshort
  have hgroups : s.fits groups.length := fits_mono hf (by rw [List.length_append]; omega)
  refine ⟨sampleWords (iqBlock s.nIq groups), ?_, execIqdec_eq (s := { s with payload := groups }) hgroups⟩
  rw [← iqBlock_append_trailing hn hwhole hshort]
  exact execIqdec_eq (s := { s with payload := groups ++ trailing }) hf

/-! ### Sums of groups against the sum of the block (R63) -/

section Totals
variable (half : Word → Half) (n k : Nat) (block : List Word)

/-- The total of the first `k + 1` groups is that of the first `k`, plus group `k`. -/
theorem groupSum_total_succ :
    groupSum half ((k + 1) * n) 0 block = groupSum half (k * n) 0 block + groupSum half n k block := by
  have hfirst : ∀ m, groupOf m 0 block = block.take m := fun m => by rw [groupOf, Nat.zero_mul, List.drop_zero]
  rw [groupSum_eq, groupSum_eq, groupSum_eq, hfirst, hfirst, take_succ_groups, halfSum_append]

theorem groupSum_total_zero : groupSum half (0 * n) 0 block = 0 := by
  rw [Nat.zero_mul]; rfl

theorem sum_groupSum : ((List.range k).map fun j => groupSum half n j block).sum = groupSum half (k * n) 0 block := by
  induction k with
  | zero => exact (groupSum_total_zero half n block).symm
  | succ k ih => rw [List.sum_range_succ, ih, groupSum_total_succ]

end Totals

/-! ### Sums of outputs where the conversions are exact (R6, R63) -/

theorem f32FromS32_zero : f32FromS32 0 = 0x00000000 := by decide

theorem f32Value_f32FromS32_of_abs_le {a : Int} (h : |a| ≤ 2 ^ 24) : f32Value (f32FromS32 a) = a :=
  f32Value_f32FromS32 a (by rw [Int.abs_eq_natAbs] at h; omega)

theorem signedUnits_f32FromS32 {a : Int} (h : |a| ≤ 2 ^ 24) : signedUnits (f32FromS32 a) = a * 2 ^ 149 := by
  have hval := f32Value_f32FromS32_of_abs_le h
  rw [f32Value, div_eq_iff (by positivity)] at hval
  exact_mod_cast hval

theorem isFinite_f32FromS32 {a : Int} (h : |a| ≤ 2 ^ 24) : isFinite (f32FromS32 a) = true := by
  obtain ⟨hlo, hhi⟩ := abs_le.1 h
  exact (roundsTo_f32FromS32 a).isFinite (abs_intCast_lt_overflowBound (by omega) (by omega))

theorem f32Sign_f32FromS32 (a : Int) : f32Sign (f32FromS32 a) = decide (a < 0) := f32Sign_pack _ (roundMag_lt _ _)

/-- Both the addition and the conversion round the same exact sum once, and neither gives -0. -/
theorem f32Add_f32FromS32 {a b : Int} (ha : |a| ≤ 2 ^ 24) (hb : |b| ≤ 2 ^ 24) :
    f32Add (f32FromS32 a) (f32FromS32 b) = f32FromS32 (a + b) := by
  rw [f32Add_finite (isFinite_f32FromS32 ha) (isFinite_f32FromS32 hb), signedUnits_f32FromS32 ha,
    signedUnits_f32FromS32 hb, ← add_mul, f32Sign_f32FromS32, f32Sign_f32FromS32]
  split
  · next hz =>
    have hsum : a + b = 0 := by omega
    have hsigns : (decide (a < 0) && decide (b < 0)) = false := by
      rw [← Bool.decide_and]; exact decide_eq_false (by omega)
    rw [hsum, hsigns, f32FromS32_zero]; rfl
  · exact (f32FromS32_eq (a + b)).symm

/-- A sum over at most 512 halves of magnitude at most 2^15. -/
theorem abs_groupSum_le (half : Word → Half) {m : Nat} (j : Nat) (block : List Word) (h : m ≤ 512) :
    |groupSum half m j block| ≤ 2 ^ 24 := by
  obtain ⟨hlo, hhi⟩ := halfSum_bounds half (groupOf m j block)
  have hlen : (groupOf m j block).length ≤ m := List.length_take_le _ _
  rw [groupSum_eq, abs_le]
  omega

/-- R63's condition for the outputs: the sums of the groups up to `k` and the running totals are exact in binary32. -/
def ExactSums (half : Word → Half) (n k : Nat) (block : List Word) : Prop :=
  ∀ j ≤ k, |groupSum half n j block| ≤ 2 ^ 24 ∧ |groupSum half (j * n) 0 block| ≤ 2 ^ 24

section Exact
variable {half : Word → Half} {n k : Nat} {block : List Word}

/-- Up to 512 pairs no sum of halves leaves the integers that binary32 holds exactly. -/
theorem exactSums_of_le (hn : n ≤ 512) (hk : k * n ≤ 512) : ExactSums half n k block := fun j hj =>
  ⟨abs_groupSum_le half j block hn, abs_groupSum_le half 0 block ((Nat.mul_le_mul_right n hj).trans hk)⟩

theorem sum_f32Value_groupSum (h : ExactSums half n k block) :
    ((List.range k).map fun j => f32Value (f32FromS32 (groupSum half n j block))).sum =
      f32Value (f32FromS32 (groupSum half (k * n) 0 block)) := by
  induction k with
  | zero => rw [groupSum_total_zero]; exact (f32Value_f32FromS32_of_abs_le (by norm_num)).symm
  | succ k ih =>
    obtain ⟨hgroup, hbefore⟩ := h k k.le_succ
    obtain ⟨-, htotal⟩ := h (k + 1) le_rfl
    rw [List.sum_range_succ, ih fun j hj => h j (hj.trans k.le_succ), f32Value_f32FromS32_of_abs_le hbefore,
      f32Value_f32FromS32_of_abs_le hgroup, f32Value_f32FromS32_of_abs_le htotal, groupSum_total_succ, Int.cast_add]

theorem foldl_f32Add_groupSum (h : ExactSums half n k block) :
    ((List.range k).map fun j => f32FromS32 (groupSum half n j block)).foldl f32Add 0x00000000 =
      f32FromS32 (groupSum half (k * n) 0 block) := by
  induction k with
  | zero => rw [groupSum_total_zero, f32FromS32_zero]; rfl
  | succ k ih =>
    obtain ⟨hgroup, hbefore⟩ := h k k.le_succ
    rw [List.range_succ, List.map_append, List.foldl_append, ih fun j hj => h j (hj.trans k.le_succ), List.map_singleton,
      List.foldl_cons, List.foldl_nil, f32Add_f32FromS32 hbefore hgroup, ← groupSum_total_succ]

end Exact

/-- A block of exactly as many pairs as the factor is answered with the one sample of the whole block. -/
theorem execIqdec_single_group {s : State} {m : Nat} (hf : s.fits m) (hm : 0 < m) (hn : s.nIq.toNat = m)
    (hlen : s.payload.length = m) :
    exec .iqdec s = .next (s.complete .ok
      [f32FromS32 (groupSum lowHalf m 0 s.payload), f32FromS32 (groupSum highHalf m 0 s.payload)]) := by
  subst hn
  rw [execIqdec_eq (by rwa [hlen]), iqBlock_eq hm, hlen, Nat.div_self hm]
  rfl

theorem toNat_nIq_ofNat {s : State} {m : Nat} (h : s.iqN = BitVec.ofNat 32 m) (hm : m < 65536) : s.nIq.toNat = m := by
  rw [State.nIq, toNat_lowHalf, h, BitVec.toNat_ofNat]
  omega

/-- Settles O34: the sums telescope over the groups; where every sum is exact in binary32, so do the outputs. -/
theorem decimationIsAssociative : Obligations.DecimationIsAssociative := by
  refine ⟨fun half block n m _ hdvd => ?sums, fun s u m hf hm hm' hlen hn hdvd hu hsmall => ?outputs⟩
  case sums => rw [sum_groupSum, Nat.div_mul_cancel (Nat.dvd_of_mod_eq_zero hdvd)]
  case outputs =>
    subst hu
    have hgroups : m / s.nIq.toNat * s.nIq.toNat = m := Nat.div_mul_cancel (Nat.dvd_of_mod_eq_zero hdvd)
    have hle : s.nIq.toNat ≤ m := Nat.le_of_dvd hm (Nat.dvd_of_mod_eq_zero hdvd)
    have hexact : ∀ half, half = lowHalf ∨ half = highHalf →
        ExactSums half s.nIq.toNat (m / s.nIq.toNat) s.payload := fun half hhalf => by
      rcases hsmall with h512 | hbounds
      · exact exactSums_of_le (hle.trans h512) (hgroups.trans_le h512)
      · exact hbounds half hhalf
    have hvalues := fun half hhalf => sum_f32Value_groupSum (hexact half hhalf)
    have hwords := fun half hhalf => foldl_f32Add_groupSum (hexact half hhalf)
    simp only [hgroups] at hvalues hwords
    refine ⟨_, _, _, execIqdec_eq (by rwa [hlen]), execIqdec_single_group hf hm (toNat_nIq_ofNat rfl hm') hlen, ?_⟩
    simp only [complexSamples_sampleWords, iqBlock_eq hn, hlen, groupSamples, List.map_map]
    exact ⟨hvalues lowHalf (.inl rfl), hvalues highHalf (.inr rfl), hwords lowHalf (.inl rfl),
      hwords highHalf (.inr rfl)⟩

end Sys2Proof.Machine
end

section
/-! PROOFS. The statements on the FM demodulator (41_fm_demodulator.md): the lines of the angle and its range, the angles
of a payload sample by sample, and the samples whose angle is a fixed value. -/

namespace Sys2Proof.Machine

/-! ### Magnitudes and signs of values -/

/-- Values are ordered by their magnitude bits. -/
theorem abs_f32Value_le_iff (v w : Word) : |f32Value v| ≤ |f32Value w| ↔ f32Mag v ≤ f32Mag w := by
  rw [abs_f32Value, abs_f32Value, div_le_div_iff_of_pos_right (by positivity), Nat.cast_le, units_eq, units_eq,
    magUnits_strictMono.le_iff_le]

theorem f32Value_nonneg {w : Word} (h : f32Sign w = false) : 0 ≤ f32Value w := by
  rw [f32Value_eq, if_neg (by simp [h])]
  positivity

theorem f32Value_nonpos {w : Word} (h : f32Sign w = true) : f32Value w ≤ 0 := by
  have hneg : 0 ≤ f32Value (f32Neg w) := f32Value_nonneg (by rw [f32Sign_neg, h]; rfl)
  rwa [f32Value_neg, neg_nonneg] at hneg

/-- A magnitude up to that of PI_F32 is a value in the range that R66 and R73 give. -/
theorem abs_f32Value_le_pi {w : Word} (h : f32Mag w ≤ f32Mag piF32) : |f32Value w| ≤ f32Value piF32 := by
  rw [← abs_of_nonneg (f32Value_nonneg (w := piF32) (by decide)), abs_f32Value_le_iff]
  exact h

theorem isFinite_of_mag_le_pi {w : Word} (h : f32Mag w ≤ f32Mag piF32) : isFinite w = true :=
  (isFinite_iff w).2 (h.trans_lt (by decide))

theorem isNaN_of_isZero {w : Word} (h : isZero w = true) : isNaN w = false := isNaN_of_isFinite (isFinite_of_isZero h)

/-! ### The open angle function (R66) -/

/-- The folding keeps ATAN2-SIGN: where the angle is no zero, its sign is that of `y`. -/
theorem atan2F32_isZero_or_sign (y x : Word) : isZero (atan2F32 y x) = true ∨ f32Sign (atan2F32 y x) = f32Sign y := by
  have hpi : f32Mag piF32 < 2 ^ 31 := f32Mag_lt _
  have hmag : f32Mag (Config.atan2Raw y x) % (f32Mag piF32 + 1) < 2 ^ 31 :=
    (Nat.mod_lt _ (Nat.succ_pos _)).trans_le hpi
  rw [isZero_iff, atan2F32, f32Mag_pack _ hmag, f32Sign_pack _ hmag]
  by_cases h0 : f32Mag (Config.atan2Raw y x) % (f32Mag piF32 + 1) = 0
  · exact Or.inl h0
  · exact Or.inr (if_neg h0)

/-- Settles O44: the folding bounds the magnitude, and a zero has the value 0 whatever its sign. -/
theorem openAngleKeepsRangeAndSign : Obligations.OpenAngleKeepsRangeAndSign := by
  intro y x
  refine ⟨isNaN_of_isFinite (isFinite_atan2F32 y x), abs_f32Value_le_pi (f32Mag_atan2F32_le y x), ?_⟩
  rcases atan2F32_isZero_or_sign y x with hzero | hsign
  · rw [(f32Value_eq_zero_iff _).2 hzero]
    exact ⟨fun _ => le_rfl, fun _ => le_rfl⟩
  · exact ⟨fun hy => f32Value_nonneg (hsign.trans hy), fun hy => f32Value_nonpos (hsign.trans hy)⟩

/-! ### The lines of the angle (R65) -/

theorem angle_of_isNaN {re im : Word} (h : isNaN re = true ∨ isNaN im = true) : angle re im = qnan :=
  if_pos (by rwa [Bool.or_eq_true])

theorem angle_zero_zero {re im : Word} (hre : isZero re = true) (him : isZero im = true) : angle re im = posZero := by
  simp [angle, isNaN_of_isZero hre, isNaN_of_isZero him, hre, him]

theorem angle_im_zero {re im : Word} (hre : isNaN re = false) (hre0 : isZero re = false) (him : isZero im = true) :
    angle re im = if f32Sign re then piF32 else posZero := by
  simp [angle, hre, isNaN_of_isZero him, hre0, him]

theorem angle_re_zero {re im : Word} (him : isNaN im = false) (him0 : isZero im = false) (hre : isZero re = true) :
    angle re im = if f32Sign im then f32Neg halfPiF32 else halfPiF32 := by
  simp [angle, him, isNaN_of_isZero hre, him0, hre]

theorem angle_off_axes {re im : Word} (hre : isNaN re = false) (him : isNaN im = false) (hre0 : isZero re = false)
    (him0 : isZero im = false) : angle re im = atan2F32 im re := by
  simp [angle, hre, him, hre0, him0]

/-- Settles O43, line by line. -/
theorem angleOnTheAxes : Obligations.AngleOnTheAxes :=
  fun _ _ => ⟨angle_of_isNaN, angle_zero_zero, angle_im_zero, angle_re_zero, angle_off_axes⟩

/-- Without a NaN every line gives a magnitude up to that of PI_F32. -/
theorem f32Mag_angle_le {re im : Word} (hre : isNaN re = false) (him : isNaN im = false) :
    f32Mag (angle re im) ≤ f32Mag piF32 := by
  cases hre0 : isZero re <;> cases him0 : isZero im
  · rw [angle_off_axes hre him hre0 him0]; exact f32Mag_atan2F32_le im re
  · rw [angle_im_zero hre hre0 him0]; split <;> decide
  · rw [angle_re_zero him him0 hre0]; split <;> decide
  · rw [angle_zero_zero hre0 him0]; decide

/-- An angle is QNAN or of a magnitude up to that of PI_F32 (R73). -/
theorem angle_eq_qnan_or_mag_le (re im : Word) : angle re im = qnan ∨ f32Mag (angle re im) ≤ f32Mag piF32 := by
  by_cases h : isNaN re = true ∨ isNaN im = true
  · exact Or.inl (angle_of_isNaN h)
  · rw [not_or, Bool.not_eq_true, Bool.not_eq_true] at h
    obtain ⟨hre, him⟩ := h
    exact Or.inr (f32Mag_angle_le hre him)

/-- On the positive real axis, and at the origin, the angle is +0. -/
theorem angle_eq_posZero {re im : Word} (hre : isNaN re = false) (hsign : f32Sign re = false) (him : isZero im = true) :
    angle re im = posZero := by
  cases hre0 : isZero re
  · rw [angle_im_zero hre hre0 him, hsign]; rfl
  · exact angle_zero_zero hre0 him

/-! ### The angles of a payload (R64, R67) -/

/-- The previous sample that FM_PREV holds (R14). -/
def State.fmPrev (s : State) : Sample := (s.fmPrevRe, s.fmPrevIm)

/-- FM_PREV written with a sample, its bits kept (R67). -/
def State.setFmPrev (s : State) (z : Sample) : State := { s with fmPrevRe := z.1, fmPrevIm := z.2 }

/-- The angle of each sample against the one before it, the first against `prev`. -/
def fmAngles (prev : Sample) (zs : List Sample) : List Word := List.zipWith fmAngle zs (prev :: zs)

theorem length_fmAngles (prev : Sample) (zs : List Sample) : (fmAngles prev zs).length = zs.length := by
  simp [fmAngles]

/-- The loop of R67 emits these angles and ends with the last sample as the previous one. -/
theorem runSteps_fmStep (prev : Sample) (zs : List Sample) :
    runSteps fmStep prev zs = (zs.getLastD prev, fmAngles prev zs) := by
  induction zs generalizing prev with
  | nil => rfl
  | cons z zs ih => rw [runSteps_cons, fmStep, ih, List.getLastD_cons]; rfl

/-- FMDEM once its checks pass. -/
theorem execFmdem_angles {s : State} (hf : s.fits s.payload.length) (he : s.payload.length % 2 = 0) :
    exec .fmdem s = .next ((s.setFmPrev ((complexSamples s.payload).getLastD s.fmPrev)).complete .ok
      (fmAngles s.fmPrev (complexSamples s.payload))) := by
  rw [execFmdem_eq hf he, runSteps_fmStep]; rfl

/-- FMDEM of one sample. -/
theorem execFmdem_single {s : State} {a b : Word} (hf : s.fits 2) (hp : s.payload = [a, b]) :
    exec .fmdem s =
      .next ({ s with fmPrevRe := a, fmPrevIm := b }.complete .ok [fmAngle (a, b) (s.fmPrevRe, s.fmPrevIm)]) := by
  rw [execFmdem_angles (by rwa [hp]) (by simp [hp]), hp]; rfl

/-- Sample `j` of FM_PREV followed by the payload's samples is the sample before sample `j` (R67). -/
theorem getElem?_fmPrev_cons {s : State} (he : s.payload.length % 2 = 0) {j : Nat} (hj : j ≤ s.payload.length / 2) :
    (s.fmPrev :: complexSamples s.payload)[j]? = some (sampleBefore s s.payload j) := by
  cases j with
  | zero => rfl
  | succ j => rw [List.getElem?_cons_succ, complexSamples_getElem? _ he j hj]; rfl

/-- The sample FMDEM leaves in FM_PREV is the one before the sample that would come next. -/
theorem getLastD_complexSamples {s : State} (he : s.payload.length % 2 = 0) :
    (complexSamples s.payload).getLastD s.fmPrev = sampleBefore s s.payload (s.payload.length / 2) := by
  have hlast := getElem?_fmPrev_cons (s := s) he le_rfl
  rw [← length_complexSamples _ he] at hlast ⊢
  apply Option.some.inj
  rw [← hlast, List.getLastD_eq_getLast?, ← List.getLast?_cons, List.getLast?_eq_getElem?, List.length_cons,
    Nat.add_sub_cancel]

theorem getElem?_fmAngles {s : State} (he : s.payload.length % 2 = 0) {j : Nat} (hj : j < s.payload.length / 2) :
    (fmAngles s.fmPrev (complexSamples s.payload))[j]? =
      some (fmAngle (sampleAt s.payload j) (sampleBefore s s.payload j)) := by
  rw [fmAngles, List.getElem?_zipWith, complexSamples_getElem? _ he j hj, getElem?_fmPrev_cons he hj.le]

/-- Settles O46: the loop's angles and its last sample, sample by sample. -/
theorem fmdemEmitsAngles : Obligations.FmdemEmitsAngles := by
  intro s hf he
  refine ⟨fmAngles s.fmPrev (complexSamples s.payload), ?_, ?_, fun j hj => getElem?_fmAngles he hj⟩
  · rw [execFmdem_angles hf he, getLastD_complexSamples he]; rfl
  · rw [length_fmAngles, length_complexSamples _ he]

/-- Settles O45: a finite product off the axes has the open function's angle, and that is within the bound. -/
theorem fmdemAnglesAreAccurate : Obligations.FmdemAnglesAreAccurate := by
  intro err s hacc hf he
  refine ⟨_, _, execFmdem_angles hf he, rfl, fun j hj => ?_⟩
  intro z p re im hre him hre0 him0
  refine ⟨angle re im, getElem?_fmAngles he hj, ?_⟩
  rw [angle_off_axes (isNaN_of_isFinite hre) (isNaN_of_isFinite him) hre0 him0]
  exact hacc im re him hre him0 hre0

/-- Settles O47: the loop over a block is the loop over its parts, and completing with OK twice records what once does. -/
theorem fmdemIsContinuousAcrossSplits : Obligations.FmdemIsContinuousAcrossSplits := by
  intro s p q hf hp hq
  rw [List.length_append] at hf
  have hlen : (p ++ q).length % 2 = 0 := by rw [List.length_append]; omega
  have hfp : s.fits p.length := fits_mono hf (by omega)
  have hfq : s.fits q.length := fits_mono hf (by omega)
  have hwhole : exec .fmdem { s with payload := p ++ q } = _ :=
    execFmdem_eq (by rw [List.length_append]; exact hf) hlen
  rw [complexSamples_append p q hp, runSteps_append] at hwhole
  refine ⟨_, _, _, _, execFmdem_eq hfp hp, ?_, hwhole⟩
  rw [execFmdem_eq hfq hq]
  simp [State.complete]

/-! ### The zero sample and the equal sample (R70, R71, R72) -/

theorem isZero_f32Mul {a b : Word} (ha : isZero a = true) (hb : isFinite b = true) : isZero (f32Mul a b) = true := by
  rw [f32Mul_finite (isFinite_of_isZero ha) hb, (units_eq_zero_iff a).2 ha, Nat.zero_mul,
    show roundMag 0 (2 ^ 149) = 0 by decide]
  exact isZero_pack_zero _

theorem isZero_f32Add {a b : Word} (ha : isZero a = true) (hb : isZero b = true) : isZero (f32Add a b) = true := by
  have hsum : f32Value a + f32Value b = 0 := by
    rw [(f32Value_eq_zero_iff a).2 ha, (f32Value_eq_zero_iff b).2 hb, add_zero]
  rw [f32Add_of_cancel (isFinite_of_isZero ha) (isFinite_of_isZero hb) hsum]
  split <;> decide

theorem isZero_f32Sub {a b : Word} (ha : isZero a = true) (hb : isZero b = true) : isZero (f32Sub a b) = true :=
  isZero_f32Add ha (by rwa [isZero_neg])

section ZeroSample
variable {a b c d : Word}

/-- Four zero products have a zero sum and a zero difference, so the angle is +0. -/
theorem fmAngle_of_zero_products (hac : isZero (f32Mul a c) = true) (hbd : isZero (f32Mul b d) = true)
    (hbc : isZero (f32Mul b c) = true) (had : isZero (f32Mul a d) = true) : fmAngle (a, b) (c, d) = posZero :=
  angle_zero_zero (isZero_f32Add hac hbd) (isZero_f32Sub hbc had)

theorem fmAngle_zero_left (ha : isZero a = true) (hb : isZero b = true) (hc : isFinite c = true)
    (hd : isFinite d = true) : fmAngle (a, b) (c, d) = posZero :=
  fmAngle_of_zero_products (isZero_f32Mul ha hc) (isZero_f32Mul hb hd) (isZero_f32Mul hb hc) (isZero_f32Mul ha hd)

theorem fmAngle_zero_right (ha : isFinite a = true) (hb : isFinite b = true) (hc : isZero c = true)
    (hd : isZero d = true) : fmAngle (a, b) (c, d) = posZero := by
  apply fmAngle_of_zero_products <;> rw [f32Mul_comm]
  · exact isZero_f32Mul hc ha
  · exact isZero_f32Mul hd hb
  · exact isZero_f32Mul hc hb
  · exact isZero_f32Mul hd ha

end ZeroSample

/-- Settles O48: a zero factor makes every product a zero. -/
theorem zeroSampleGivesZeroAngle : Obligations.ZeroSampleGivesZeroAngle := by
  intro s a b hf hp ha hb hre him hzero
  rw [execFmdem_single hf hp]
  rcases hzero with ⟨ha0, hb0⟩ | ⟨hre0, him0⟩
  · rw [fmAngle_zero_left ha0 hb0 hre him]; rfl
  · rw [fmAngle_zero_right ha hb hre0 him0]; rfl

/-- `RSTST` as the host's next move: the previous sample becomes a zero, and `max_payload` stays. -/
theorem step_rstst {s : State} {rest : List HostMove} (hhost : s.host = .command ⟨encode .rstst, []⟩ :: rest) :
    ∃ u, step s = .next u ∧ u.host = rest ∧ u.maxPayload = s.maxPayload ∧ u.fmPrevRe = posZero ∧
      u.fmPrevIm = posZero :=
  ⟨_, (step_decoded hhost (decode_encode .rstst)).trans (execRstst_eq rfl), rfl, rfl, rfl, rfl⟩

/-- `FMDEM` of one sample as the host's next move. -/
theorem step_fmdem_single {s : State} {a b : Word} {rest : List HostMove} (hf : s.fits 2)
    (hhost : s.host = .command ⟨encode .fmdem, [a, b]⟩ :: rest) :
    step s = .next ({ s with host := rest, fmPrevRe := a, fmPrevIm := b }.complete .ok
      [fmAngle (a, b) (s.fmPrevRe, s.fmPrevIm)]) :=
  (step_decoded hhost (decode_encode .fmdem)).trans (execFmdem_single hf rfl)

/-- Settles O50: `RSTST` leaves a zero sample in FM_PREV, against which any finite sample has the angle +0. -/
theorem firstAngleOfAStreamIsZero : Obligations.FirstAngleOfAStreamIsZero := by
  intro s a b rest hf ha hb hhost
  obtain ⟨u, hrstst, huhost, hmax, hre, him⟩ := step_rstst hhost
  have hfu : u.fits 2 := by rwa [State.fits, tooLong_eq_any, hmax, ← tooLong_eq_any]
  have hfmdem := step_fmdem_single hfu huhost
  rw [hre, him, fmAngle_zero_right ha hb isZero_posZero isZero_posZero] at hfmdem
  exact ⟨_, (run_succ 1 hrstst).trans (run_succ 0 hfmdem), rfl, rfl, rfl⟩

/-- The word is no NaN and its sign bit is clear: a value from +0 on, or the positive infinity. -/
def NonNegative (w : Word) : Prop := isNaN w = false ∧ f32Sign w = false

theorem isInf_or_isFinite {w : Word} (h : isNaN w = false) : isInf w = true ∨ isFinite w = true := by
  rw [Bool.eq_false_iff, Ne, isNaN_iff] at h
  rw [isInf_iff, isFinite_iff]
  omega

theorem isNaN_pack_roundMag (s : Bool) (n d : Nat) : isNaN (pack s (roundMag n d)) = false := by
  rw [Bool.eq_false_iff, Ne, isNaN_iff, f32Mag_pack _ (roundMag_lt n d)]
  exact (roundMag_le n d).not_gt

theorem nonNegative_f32Mul_self {a : Word} (ha : isFinite a = true) : NonNegative (f32Mul a a) := by
  rw [f32Mul_finite ha ha, bne_self_eq_false]
  exact ⟨isNaN_pack_roundMag _ _ _, f32Sign_pack _ (roundMag_lt _ _)⟩

theorem nonNegative_f32Add {a b : Word} (ha : NonNegative a) (hb : NonNegative b) : NonNegative (f32Add a b) := by
  obtain ⟨hna, hsa⟩ := ha
  obtain ⟨hnb, hsb⟩ := hb
  rcases isInf_or_isFinite hna with hia | hfa <;> rcases isInf_or_isFinite hnb with hib | hfb
  · rw [f32Add_inf_inf hia hib, if_pos (hsa.trans hsb.symm)]; exact ⟨hna, hsa⟩
  · rw [f32Add_inf_finite hia hfb]; exact ⟨hna, hsa⟩
  · rw [f32Add_finite_inf hib hfa]; exact ⟨hnb, hsb⟩
  · have hsum : ¬ signedUnits a + signedUnits b < 0 := by
      rw [signedUnits, signedUnits, hsa, hsb, if_neg Bool.false_ne_true, if_neg Bool.false_ne_true]
      omega
    rw [f32Add_finite hfa hfb, hsa, decide_eq_false hsum, Bool.false_and]
    split
    · exact ⟨by decide, by decide⟩
    · exact ⟨isNaN_pack_roundMag _ _ _, f32Sign_pack _ (roundMag_lt _ _)⟩

theorem isZero_f32Sub_self {p : Word} (h : isFinite p = true) : isZero (f32Sub p p) = true := by
  have hcancel : f32Value p + f32Value (f32Neg p) = 0 := by rw [f32Value_neg, add_neg_cancel]
  rw [f32Sub, f32Add_of_cancel h ((isFinite_neg p).trans h) hcancel]
  split <;> decide

/-- An overflowed product less itself is infinity less infinity (C7). -/
theorem f32Sub_self_of_isInf {p : Word} (h : isInf p = true) : f32Sub p p = qnan := by
  rw [f32Sub_inf_inf h h, if_pos rfl]

/-- The angle of a finite sample against itself: the imaginary part is `b·a - a·b`. -/
theorem fmAngle_self {a b : Word} (ha : isFinite a = true) (hb : isFinite b = true) :
    fmAngle (a, b) (a, b) = if isFinite (f32Mul a b) then posZero else qnan := by
  have hnan : isNaN (f32Mul a b) = false := by rw [f32Mul_finite ha hb]; exact isNaN_pack_roundMag _ _ _
  obtain ⟨hre, hsign⟩ := nonNegative_f32Add (nonNegative_f32Mul_self ha) (nonNegative_f32Mul_self hb)
  change angle _ (f32Sub (f32Mul b a) (f32Mul a b)) = _
  rw [f32Mul_comm b a]
  split
  · next hfin => exact angle_eq_posZero hre hsign (isZero_f32Sub_self hfin)
  · next hinf =>
    rw [f32Sub_self_of_isInf ((isInf_or_isFinite hnan).resolve_right hinf)]
    exact angle_of_isNaN (Or.inr isNaN_qnan)

/-- Settles O49, by the angle of a sample against itself. -/
theorem equalSampleGivesZeroAngle : Obligations.EqualSampleGivesZeroAngle := by
  rintro s _ _ hf hp rfl rfl ha hb
  rw [execFmdem_single hf hp, fmAngle_self ha hb]
  rfl

/-! ### The range of the angles (R73) -/

/-- A correct rounding at most doubles a magnitude: 0 is a value at that distance. -/
theorem RoundsTo.abs_le_two_mul {x : ℝ} {w : Word} (h : RoundsTo x w) (hx : |x| < overflowBound) :
    |(f32Value w : ℝ)| ≤ 2 * |x| := by
  have hnear := h.nearest hx isFinite_posZero
  rw [(f32Value_eq_zero_iff posZero).2 isZero_posZero, Rat.cast_zero, zero_sub, abs_neg] at hnear
  have htriangle := abs_sub_abs_le_abs_sub (f32Value w : ℝ) x
  linarith

/-- Finite, and far enough below the overflow bound for a sum to be finite too: what a product of two words in the IQ
range is. -/
def WithinSumRange (w : Word) : Prop := isFinite w = true ∧ |f32Value w| ≤ 2 ^ 63

theorem withinSumRange_f32Mul {a b : Word} (ha : inIqRange a) (hb : inIqRange b) : WithinSumRange (f32Mul a b) := by
  obtain ⟨hfa, hva⟩ := ha
  obtain ⟨hfb, hvb⟩ := hb
  obtain ⟨hround, -⟩ := multiplicationRoundsOnce a b hfa hfb
  have hprod : |f32Value a * f32Value b| ≤ 2 ^ 62 := by
    rw [abs_mul]
    calc |f32Value a| * |f32Value b| ≤ 2 ^ 31 * 2 ^ 31 := by gcongr
      _ = 2 ^ 62 := by norm_num
  have hprodR : |((f32Value a * f32Value b : ℚ) : ℝ)| ≤ 2 ^ 62 := by exact_mod_cast hprod
  have hbound : |((f32Value a * f32Value b : ℚ) : ℝ)| < overflowBound :=
    hprodR.trans_lt (by norm_num [overflowBound])
  have hdouble : |(f32Value (f32Mul a b) : ℝ)| ≤ 2 ^ 63 := by
    have := hround.abs_le_two_mul hbound
    linarith
  exact ⟨hround.isFinite hbound, by exact_mod_cast hdouble⟩

theorem isFinite_f32Add_of_withinSumRange {a b : Word} (ha : WithinSumRange a) (hb : WithinSumRange b) :
    isFinite (f32Add a b) = true := by
  obtain ⟨hfa, hva⟩ := ha
  obtain ⟨hfb, hvb⟩ := hb
  have hsum : |f32Value a + f32Value b| < overflowBound :=
    calc |f32Value a + f32Value b| ≤ |f32Value a| + |f32Value b| := abs_add_le _ _
      _ ≤ 2 ^ 63 + 2 ^ 63 := by gcongr
      _ < overflowBound := by norm_num [overflowBound]
  exact (roundsTo_f32Add hfa hfb).isFinite (by exact_mod_cast hsum)

theorem withinSumRange_neg {w : Word} (h : WithinSumRange w) : WithinSumRange (f32Neg w) := by
  rwa [WithinSumRange, isFinite_neg, f32Value_neg, abs_neg]

/-- Both parts of a sample are in the range of `IQDEC`'s outputs. -/
def SampleInIqRange (z : Sample) : Prop := inIqRange z.1 ∧ inIqRange z.2

theorem isNaN_fmAngle {z p : Sample} (hz : SampleInIqRange z) (hp : SampleInIqRange p) :
    isNaN (fmAngle z p) = false := by
  obtain ⟨hz1, hz2⟩ := hz
  obtain ⟨hp1, hp2⟩ := hp
  have hre := isFinite_f32Add_of_withinSumRange (withinSumRange_f32Mul hz1 hp1) (withinSumRange_f32Mul hz2 hp2)
  have him := isFinite_f32Add_of_withinSumRange (withinSumRange_f32Mul hz2 hp1)
    (withinSumRange_neg (withinSumRange_f32Mul hz1 hp2))
  exact isNaN_of_isFinite
    (isFinite_of_mag_le_pi (f32Mag_angle_le (isNaN_of_isFinite hre) (isNaN_of_isFinite him)))

/-- What holds of every payload word holds of both parts of every sample. -/
theorem forall_mem_complexSamples {P : Word → Prop} {p : List Word} (h : ∀ w ∈ p, P w) :
    ∀ z ∈ complexSamples p, P z.1 ∧ P z.2 := by
  induction p using complexSamples.induct with
  | case1 re im rest ih =>
    rw [List.forall_mem_cons, List.forall_mem_cons] at h
    obtain ⟨hre, him, hrest⟩ := h
    exact List.forall_mem_cons.2 ⟨⟨hre, him⟩, ih hrest⟩
  | case2 l hl =>
    match l, hl with
    | [], _ => exact fun z hz => absurd hz List.not_mem_nil
    | [w], _ => exact fun z hz => absurd hz List.not_mem_nil
    | re :: im :: rest, hl => exact absurd rfl (hl re im rest)

/-- Each angle is that of one of the samples against one of them or `prev`. -/
theorem exists_of_mem_fmAngles {prev : Sample} {zs : List Sample} {w : Word} (h : w ∈ fmAngles prev zs) :
    ∃ z ∈ zs, ∃ p ∈ prev :: zs, w = fmAngle z p := by
  rw [fmAngles, ← List.map_uncurry_zip_eq_zipWith] at h
  obtain ⟨⟨z, p⟩, hzp, rfl⟩ := List.mem_map.1 h
  obtain ⟨hz, hp⟩ := List.of_mem_zip hzp
  exact ⟨z, hz, p, hp, rfl⟩

/-- Everything FMDEM can do: it is rejected, or it answers the angles of its samples. -/
theorem execFmdem_cases {s t : State} (h : exec .fmdem s = .next t) :
    (∃ code, t = s.reject code) ∨
      t = (s.setFmPrev ((complexSamples s.payload).getLastD s.fmPrev)).complete .ok
        (fmAngles s.fmPrev (complexSamples s.payload)) := by
  rw [exec, execFmdem] at h
  rcases issue_cases s .fmdem _ with ⟨-, h'⟩ | ⟨-, h'⟩
  · rw [← Host.Outcome.next.inj (h'.symm.trans h), runSteps_fmStep]; exact Or.inr rfl
  · exact Or.inl ⟨_, (Host.Outcome.next.inj (h'.symm.trans h)).symm⟩

/-- Every word FMDEM answers is an angle of its samples: a rejection answers none. -/
theorem mem_answer_execFmdem {s t : State} {a : Answer} {w : Word} (h : exec .fmdem s = .next t)
    (ha : t.answer = some a) (hw : w ∈ a.out) : w ∈ fmAngles s.fmPrev (complexSamples s.payload) := by
  rcases execFmdem_cases h with ⟨code, rfl⟩ | rfl
  · obtain rfl := Option.some.inj ha
    exact absurd hw List.not_mem_nil
  · obtain rfl := Option.some.inj ha
    exact hw

/-- Settles O51: each line of the angle is in range, and IQ-range operands give it finite parts. -/
theorem anglesStayInRange : Obligations.AnglesStayInRange := by
  intro s t a h ha
  refine ⟨fun w hw => ?range, fun hpayload hre him w hw => ?noNaN⟩ <;>
    obtain ⟨z, hz, p, hp, rfl⟩ := exists_of_mem_fmAngles (mem_answer_execFmdem h ha hw)
  case range =>
    exact (angle_eq_qnan_or_mag_le _ _).imp_right fun hmag =>
      ⟨isNaN_of_isFinite (isFinite_of_mag_le_pi hmag), abs_f32Value_le_pi hmag⟩
  case noNaN =>
    have hsamples : ∀ y ∈ complexSamples s.payload, SampleInIqRange y := forall_mem_complexSamples hpayload
    have hprev : SampleInIqRange s.fmPrev := ⟨hre, him⟩
    exact isNaN_fmAngle (hsamples z hz) (List.forall_mem_cons.2 ⟨hprev, hsamples⟩ p hp)

end Sys2Proof.Machine
end

section
/-! PROOFS. The statements on the AM demodulator (42_am_demodulator.md): the magnitudes of a payload sample by sample, its
split into two commands, and the sign of a magnitude. -/

namespace Sys2Proof.Machine

/-! ### The magnitudes of a payload (R75, R76) -/

/-- AMDEM of a payload that the state does not hold yet: the output is a function of the payload alone. -/
theorem execAmdem_payload {s : State} {p : List Word} (hf : s.fits p.length) (he : p.length % 2 = 0) :
    exec .amdem { s with payload := p } = .next (s.complete .ok ((complexSamples p).map amSample)) :=
  execAmdem_eq (s := { s with payload := p }) hf he

/-- Settles O52: the output is the magnitude of each sample, by its words. -/
theorem amdemEmitsMagnitudes : Obligations.AmdemEmitsMagnitudes := by
  intro s hf he
  refine ⟨_, execAmdem_eq hf he, ?_, fun k hk => ?_⟩
  · rw [List.length_map, length_complexSamples _ he]
  · rw [List.getElem?_map, complexSamples_getElem? _ he k hk]; rfl

/-- Settles O53: an even first part ends between two samples, and each sample has its magnitude whatever the state. -/
theorem amdemIsStateless : Obligations.AmdemIsStateless := by
  intro s u p q hfs hfu hp hq
  have hlen : (p ++ q).length = p.length + q.length := List.length_append
  have hfp : s.fits p.length := fits_mono hfs (by omega)
  have hfq : u.fits q.length := fits_mono hfu (by omega)
  refine ⟨_, _, execAmdem_payload hfp hp, execAmdem_payload hfq hq, ?_⟩
  rw [execAmdem_payload hfs (by omega), complexSamples_append p q hp, List.map_append]

/-! ### The sign of a magnitude (R77) -/

/-- The two factors of a square have one sign, for an infinity as for a finite value. -/
theorem nonNegative_f32Mul_self_of_not_isNaN {a : Word} (h : isNaN a = false) : NonNegative (f32Mul a a) := by
  rcases isInf_or_isFinite h with hinf | hfin
  · rw [f32Mul_inf_inf hinf hinf, bne_self_eq_false]
    exact ⟨isNaN_of_isInf (isInf_pack_inf _), f32Sign_pack_inf _⟩
  · exact nonNegative_f32Mul_self hfin

theorem f32Sqrt_posInf {a : Word} (hinf : isInf a = true) (hs : f32Sign a = false) : f32Sqrt a = a := by
  simp [f32Sqrt, isNaN_of_isInf hinf, isZero_of_isInf hinf, hs, hinf]

/-- The root of the infinity and of +0 is the operand, and any other root is packed with a clear sign. -/
theorem nonNegative_f32Sqrt {a : Word} (h : NonNegative a) : NonNegative (f32Sqrt a) := by
  obtain ⟨hnan, hs⟩ := h
  rcases isInf_or_isFinite hnan with hinf | hfin
  · rw [f32Sqrt_posInf hinf hs]; exact ⟨hnan, hs⟩
  · cases h0 : isZero a with
    | true => rw [f32Sqrt_zero h0 hnan]; exact ⟨hnan, hs⟩
    | false =>
      rw [f32Sqrt_finite hfin h0 hs]
      exact ⟨isNaN_pack_roundMag _ _ _, f32Sign_pack _ (roundMag_lt _ _)⟩

/-- A NaN part makes its square a NaN, and the sum and the root keep it. -/
theorem amMag_of_isNaN {a b : Word} (h : isNaN a = true ∨ isNaN b = true) : amMag a b = qnan := by
  have hsquare : isNaN (f32Mul a a) = true ∨ isNaN (f32Mul b b) = true :=
    h.imp (fun ha => by rw [f32Mul_of_isNaN (Or.inl ha), isNaN_qnan])
      (fun hb => by rw [f32Mul_of_isNaN (Or.inl hb), isNaN_qnan])
  rw [amMag, f32Add_of_isNaN hsquare, f32Sqrt_of_isNaN isNaN_qnan, canon_of_isNaN isNaN_qnan]

theorem nonNegative_amMag {a b : Word} (ha : isNaN a = false) (hb : isNaN b = false) : NonNegative (amMag a b) := by
  obtain ⟨hnan, hs⟩ := nonNegative_f32Sqrt
    (nonNegative_f32Add (nonNegative_f32Mul_self_of_not_isNaN ha) (nonNegative_f32Mul_self_of_not_isNaN hb))
  rw [amMag, canon_of_not_isNaN hnan]
  exact ⟨hnan, hs⟩

theorem amMag_eq_qnan_or_nonNegative (a b : Word) : amMag a b = qnan ∨ NonNegative (amMag a b) := by
  cases ha : isNaN a with
  | true => exact Or.inl (amMag_of_isNaN (Or.inl ha))
  | false =>
    cases hb : isNaN b with
    | true => exact Or.inl (amMag_of_isNaN (Or.inr hb))
    | false => exact Or.inr (nonNegative_amMag ha hb)

/-- Every word a command answers is one of its effect's output: a rejection answers none. -/
theorem mem_output_of_mem_answer {s t : State} {i : Instr} {a : Answer} {w : Word} {run : State → State × List Word}
    (h : s.issue i run = .next t) (ha : t.answer = some a) (hw : w ∈ a.out) : w ∈ (run s).2 := by
  rcases issue_cases s i run with ⟨-, h'⟩ | ⟨-, h'⟩
  · obtain rfl : _ = t := Host.Outcome.next.inj (h'.symm.trans h)
    obtain rfl : _ = a := Option.some.inj ha
    exact hw
  · obtain rfl : _ = t := Host.Outcome.next.inj (h'.symm.trans h)
    obtain rfl : _ = a := Option.some.inj ha
    exact absurd hw List.not_mem_nil

/-- Settles O54: squares are not negative, and neither the sum nor the root changes that. -/
theorem magnitudesAreNeverNegative : Obligations.MagnitudesAreNeverNegative := by
  intro s t a h ha w hw
  rw [exec, execAmdem] at h
  obtain ⟨z, -, rfl⟩ := List.mem_map.1 (mem_output_of_mem_answer h ha hw)
  exact amMag_eq_qnan_or_nonNegative z.1 z.2

end Sys2Proof.Machine
end

section
/-! PROOFS. The statements on the audio decimator (43_audio_decimator.md): the window register while a window is being
summed, the words that the loop emits window by window, and the loop over a block and over its two parts. -/

namespace Sys2Proof.Machine

/-! ### The window register (R80) -/

/-- The window register after these samples, when they do not complete the window. -/
def Window.after (w : Window) (samples : List Word) : Window :=
  ⟨windowSum w.acc samples, w.cnt + BitVec.ofNat 16 samples.length⟩

@[simp] theorem Window.after_nil (w : Window) : w.after [] = w := by
  simp [Window.after, windowSum]

theorem Window.after_append (w : Window) (xs ys : List Word) : w.after (xs ++ ys) = (w.after xs).after ys := by
  simp [Window.after, windowSum, List.foldl_append, BitVec.ofNat_add, BitVec.add_assoc]

theorem Window.toNat_cnt_after {w : Window} {samples : List Word} (h : w.cnt.toNat + samples.length < 65536) :
    (w.after samples).cnt.toNat = w.cnt.toNat + samples.length := by
  simp only [Window.after, BitVec.toNat_add, BitVec.toNat_ofNat]
  omega

/-- The word a complete window gives: its sequential sum from `acc`, times the scale (R80). -/
def windowWord (scale acc : Word) (samples : List Word) : Word := canon (f32Mul (windowSum acc samples) scale)

section OneWindow
variable {n : Half} (scale : Word) {w : Window}

/-- Both cases of `aud_step` on an incomplete window: this sample completes it, or it is still incomplete. -/
theorem audStep_eq (h : w.cnt.toNat < n.toNat) (v : Word) :
    audStep n scale w v =
      if w.cnt.toNat + 1 = n.toNat then (⟨posZero, 0⟩, [windowWord scale w.acc [v]]) else (w.after [v], []) := by
  have hn := n.isLt
  have hnext : (w.cnt + 1).toNat = w.cnt.toNat + 1 := BitVec.toNat_add_of_lt (by simp; omega)
  have hfull : w.cnt + 1 = n ↔ w.cnt.toNat + 1 = n.toNat := by rw [← BitVec.toNat_inj, hnext]
  simp only [audStep, hfull]
  rfl

/-- Samples that do not complete the window are added and nothing is emitted (R82). -/
theorem runSteps_audStep_incomplete {samples : List Word} (h : w.cnt.toNat + samples.length < n.toNat) :
    runSteps (audStep n scale) w samples = (w.after samples, []) := by
  have hn := n.isLt
  induction samples generalizing w with
  | nil => rw [runSteps_nil, Window.after_nil]
  | cons v rest ih =>
    rw [List.length_cons] at h
    have hcnt : (w.after [v]).cnt.toNat = w.cnt.toNat + 1 :=
      Window.toNat_cnt_after (by rw [List.length_singleton]; omega)
    have hrest : (w.after [v]).cnt.toNat + rest.length < n.toNat := by omega
    rw [runSteps_cons, audStep_eq scale (by omega), if_neg (by omega), ih hrest, ← Window.after_append]
    rfl

/-- The samples that complete a window are emitted as one word, and the window starts again from +0. -/
theorem runSteps_audStep_window {samples : List Word} (hw : w.cnt.toNat < n.toNat)
    (h : w.cnt.toNat + samples.length = n.toNat) :
    runSteps (audStep n scale) w samples = (⟨posZero, 0⟩, [windowWord scale w.acc samples]) := by
  have hn := n.isLt
  obtain ⟨earlier, v, rfl⟩ : ∃ earlier v, samples = earlier ++ [v] :=
    List.eq_nil_or_concat' samples |>.resolve_left (by rintro rfl; rw [List.length_nil] at h; omega)
  rw [List.length_append, List.length_singleton] at h
  have hcnt : (w.after earlier).cnt.toNat = w.cnt.toNat + earlier.length := Window.toNat_cnt_after (by omega)
  have hsum : windowWord scale (w.after earlier).acc [v] = windowWord scale w.acc (earlier ++ [v]) := by
    rw [windowWord, windowWord, windowSum, windowSum, List.foldl_append]; rfl
  have hlast : audStep n scale (w.after earlier) v = (⟨posZero, 0⟩, [windowWord scale w.acc (earlier ++ [v])]) := by
    rw [audStep_eq scale (by omega), if_pos (by omega), hsum]
  have hearlier : w.cnt.toNat + earlier.length < n.toNat := by omega
  rw [runSteps_append, runSteps_audStep_incomplete scale hearlier, runSteps_cons, hlast]
  rfl

end OneWindow

/-! ### A whole payload, window by window (R81, R84) -/

/-- The window register where window `j` of a command begins: as the command finds it, and then cleared. -/
def State.windowAt (s : State) (j : Nat) : Window := ⟨windowStart s j, if j = 0 then s.cnt else 0⟩

theorem toNat_cnt_windowAt_succ (s : State) (j : Nat) : (s.windowAt (j + 1)).cnt.toNat = 0 := rfl

/-- The words of the first `k` windows of a command. -/
def State.windowWords (s : State) (scale : Word) (k : Nat) (payload : List Word) : List Word :=
  (List.range k).map fun j => windowWord scale (windowStart s j) (windowSamples s.nAud.toNat s.cnt.toNat j payload)

/-- How many windows a payload completes, the samples of earlier commands counted in (R84). -/
def State.fullWindows (s : State) (payload : List Word) : Nat := (s.cnt.toNat + payload.length) / s.nAud.toNat

/-- The samples after the last window that a payload completes. -/
def State.windowRest (s : State) (payload : List Word) : List Word :=
  payload.drop (windowOffset s.nAud.toNat s.cnt.toNat (s.fullWindows payload))

/-- The complete windows end within the payload. -/
theorem windowOffset_le_length (s : State) (payload : List Word) :
    windowOffset s.nAud.toNat s.cnt.toNat (s.fullWindows payload) ≤ payload.length := by
  have hdiv := Nat.div_mul_le_self (s.cnt.toNat + payload.length) s.nAud.toNat
  rw [windowOffset, State.fullWindows]
  omega

section Payload
variable {s : State} (hcnt : s.cnt.toNat < s.nAud.toNat)
include hcnt

theorem windowAt_cnt_lt (j : Nat) : (s.windowAt j).cnt.toNat < s.nAud.toNat := by
  cases j with
  | zero => exact hcnt
  | succ j => exact Nat.zero_lt_of_lt hcnt

/-- Where window `j` begins, `j` windows of samples have passed since window 0 began, those of earlier commands
included. -/
theorem cnt_add_windowOffset (j : Nat) :
    s.cnt.toNat + windowOffset s.nAud.toNat s.cnt.toNat j = j * s.nAud.toNat + (s.windowAt j).cnt.toNat := by
  cases j with
  | zero => rw [windowOffset, Nat.zero_mul, Nat.zero_sub, Nat.add_comm]; rfl
  | succ j =>
    have hle : s.nAud.toNat ≤ (j + 1) * s.nAud.toNat := Nat.le_mul_of_pos_left _ j.succ_pos
    rw [windowOffset, toNat_cnt_windowAt_succ]
    omega

theorem windowOffset_succ (j : Nat) :
    windowOffset s.nAud.toNat s.cnt.toNat (j + 1) =
      windowOffset s.nAud.toNat s.cnt.toNat j + (s.nAud.toNat - (s.windowAt j).cnt.toNat) := by
  have hlt := windowAt_cnt_lt hcnt j
  have hj := cnt_add_windowOffset hcnt j
  have hj' := cnt_add_windowOffset hcnt (j + 1)
  rw [toNat_cnt_windowAt_succ, Nat.succ_mul] at hj'
  omega

theorem take_windowOffset_succ (j : Nat) (payload : List Word) :
    payload.take (windowOffset s.nAud.toNat s.cnt.toNat (j + 1)) =
      payload.take (windowOffset s.nAud.toNat s.cnt.toNat j) ++ windowSamples s.nAud.toNat s.cnt.toNat j payload := by
  rw [windowSamples, windowOffset_succ hcnt, Nat.add_sub_cancel_left, List.take_add]

/-- The samples of a window that the payload completes, with those counted before them, are as many as the factor. -/
theorem cnt_add_length_windowSamples {j : Nat} {payload : List Word}
    (h : windowOffset s.nAud.toNat s.cnt.toNat (j + 1) ≤ payload.length) :
    (s.windowAt j).cnt.toNat + (windowSamples s.nAud.toNat s.cnt.toNat j payload).length = s.nAud.toNat := by
  have hlt := windowAt_cnt_lt hcnt j
  have hsucc := windowOffset_succ hcnt j
  rw [windowSamples, List.length_take, List.length_drop]
  omega

/-- The loop up to where window `k` begins: one word for each window before it. -/
theorem runSteps_audStep_windows (scale : Word) {k : Nat} {payload : List Word}
    (h : windowOffset s.nAud.toNat s.cnt.toNat k ≤ payload.length) :
    runSteps (audStep s.nAud scale) s.window (payload.take (windowOffset s.nAud.toNat s.cnt.toNat k)) =
      (s.windowAt k, s.windowWords scale k payload) := by
  induction k with
  | zero => rw [windowOffset, Nat.zero_mul, Nat.zero_sub]; rfl
  | succ k ih =>
    have hk := windowOffset_succ hcnt k
    rw [take_windowOffset_succ hcnt, runSteps_append, ih (by omega),
      runSteps_audStep_window scale (windowAt_cnt_lt hcnt k) (cnt_add_length_windowSamples hcnt h),
      State.windowWords, State.windowWords, List.range_succ, List.map_append]
    rfl

/-- The window that a payload leaves incomplete holds `(CNT + L) mod N` samples (R84). -/
theorem cnt_add_length_windowRest (payload : List Word) :
    (s.windowAt (s.fullWindows payload)).cnt.toNat + (s.windowRest payload).length =
      (s.cnt.toNat + payload.length) % s.nAud.toNat := by
  have hoffset := cnt_add_windowOffset hcnt (s.fullWindows payload)
  have hle := windowOffset_le_length s payload
  have hmod : s.fullWindows payload * s.nAud.toNat + _ = _ :=
    Nat.div_add_mod' (s.cnt.toNat + payload.length) s.nAud.toNat
  rw [State.windowRest, List.length_drop]
  omega

/-- The loop over a payload: one word per complete window, and the samples after the last one in the window register. -/
theorem runSteps_audStep_payload (scale : Word) (payload : List Word) :
    runSteps (audStep s.nAud scale) s.window payload =
      ((s.windowAt (s.fullWindows payload)).after (s.windowRest payload),
        s.windowWords scale (s.fullWindows payload) payload) := by
  have hrest := cnt_add_length_windowRest hcnt payload
  have hmod := Nat.mod_lt (s.cnt.toNat + payload.length) (Nat.zero_lt_of_lt hcnt)
  conv_lhs =>
    rw [← List.take_append_drop (windowOffset s.nAud.toNat s.cnt.toNat (s.fullWindows payload)) payload]
  rw [runSteps_append, runSteps_audStep_windows hcnt scale (windowOffset_le_length s payload), ← State.windowRest,
    runSteps_audStep_incomplete scale (hrest.trans_lt hmod), List.append_nil]

/-- The count written back to AUD_CNT after a payload (R84). -/
theorem zext32_cnt_after_windowRest (payload : List Word) :
    zext32 ((s.windowAt (s.fullWindows payload)).after (s.windowRest payload)).cnt =
      BitVec.ofNat 32 ((s.cnt.toNat + payload.length) % s.nAud.toNat) := by
  have hn := s.nAud.isLt
  have hrest := cnt_add_length_windowRest hcnt payload
  have hmod := Nat.mod_lt (s.cnt.toNat + payload.length) (Nat.zero_lt_of_lt hcnt)
  rw [← BitVec.toNat_inj, toNat_zext32, Window.toNat_cnt_after (by omega), hrest, BitVec.toNat_ofNat,
    Nat.mod_eq_of_lt (b := 2 ^ 32) (by omega)]

end Payload

theorem length_windowWords (s : State) (scale : Word) (k : Nat) (payload : List Word) :
    (s.windowWords scale k payload).length = k := by
  rw [State.windowWords, List.length_map, List.length_range]

theorem getElem?_windowWords (s : State) (scale : Word) {j k : Nat} (hj : j < k) (payload : List Word) :
    (s.windowWords scale k payload)[j]? =
      some (windowWord scale (windowStart s j) (windowSamples s.nAud.toNat s.cnt.toNat j payload)) := by
  rw [State.windowWords, List.getElem?_map, List.getElem?_range hj]; rfl

/-- Settles O55: the loop's words window by window, and the samples after the last window in AUD_ACC and AUD_CNT. -/
theorem auddecEmitsWindows : Obligations.AuddecEmitsWindows := by
  intro s hf hcnt
  refine ⟨_, ?_, length_windowWords .., fun j hj => getElem?_windowWords _ _ hj _⟩
  rw [execAuddec_eq hf, runSteps_audStep_payload hcnt, State.setWindow, zext32_cnt_after_windowRest hcnt]
  rfl

/-! ### A block and its two parts (R83) -/

/-- The next command finds the window that the one before wrote back. -/
@[simp] theorem setWindow_window (s : State) (w : Window) : (s.setWindow w).window = w := by
  simp [State.window, State.cnt]

/-- AUDDEC of a payload after a command that wrote back the window `w` and changed nothing else but STATUS. -/
theorem execAuddec_after_setWindow {s : State} (w : Window) (out : List Word) {q : List Word} (hf : s.fits q.length) :
    let done := runSteps (audStep s.nAud (audScale s.audGain s.nAud)) w q
    exec .auddec { (s.setWindow w).complete .ok out with payload := q } =
      .next ((s.setWindow done.1).complete .ok done.2) := by
  intro done
  have hexec := execAuddec_eq (s := { (s.setWindow w).complete .ok out with payload := q }) hf
  have hwindow : State.window { (s.setWindow w).complete .ok out with payload := q } = w := setWindow_window s w
  rw [hexec, hwindow]
  simp only [State.complete, State.setWindow, recordCode_ok_ok]
  rfl

/-- Settles O56: the loop over a block is the loop over its parts, and the window between them is carried whole. -/
theorem windowsSpanCommands : Obligations.WindowsSpanCommands := by
  intro s p q hf _
  have hlen : (p ++ q).length = p.length + q.length := List.length_append
  have hfp : s.fits p.length := fits_mono hf (by omega)
  have hfq : s.fits q.length := fits_mono hf (by omega)
  have hwhole : exec .auddec { s with payload := p ++ q } = _ := execAuddec_eq hf
  rw [runSteps_append] at hwhole
  exact ⟨_, _, _, _, execAuddec_eq hfp, execAuddec_after_setWindow (s := { s with payload := p }) _ _ hfq, hwhole⟩

end Sys2Proof.Machine
end

section
/-! PROOFS. The statements on the chain (44_pipeline.md): the one interleaved loop of R88 against its three stages run
one after the other, and what a `PIPE` command leaves behind. -/

namespace Sys2Proof.Machine

/-! ### The demodulator as a loop step (R88, R89) -/

/-- One step of the selected demodulator: FM emits an angle and carries the sample on, AM emits a magnitude and carries
nothing on. -/
def demodStep (fm : Bool) (prev z : Sample) : Sample × List Word := if fm then fmStep prev z else (prev, [amSample z])

theorem demodStep_fm : demodStep true = fmStep := rfl

theorem runSteps_demodStep_am (prev : Sample) (zs : List Sample) :
    runSteps (demodStep false) prev zs = (prev, zs.map amSample) := by
  induction zs with
  | nil => rfl
  | cons z zs ih =>
    have hstep : demodStep false prev z = (prev, [amSample z]) := rfl
    rw [runSteps_cons, hstep, ih]; rfl

/-- Either demodulator emits one word per sample. -/
theorem length_runSteps_demodStep (fm : Bool) (prev : Sample) (zs : List Sample) :
    (runSteps (demodStep fm) prev zs).2.length = zs.length := by
  cases fm with
  | true => rw [demodStep_fm, runSteps_fmStep, length_fmAngles]
  | false => rw [runSteps_demodStep_am, List.length_map]

/-! ### The interleaved loop is its three stages (R88, R89) -/

/-- The three stages over a whole block, one after the other, each over all that the one before emitted. -/
def pipeStages (c : PipeConfig) (r : PipeRegs) (block : List Word) : PipeRegs × List Word :=
  let samples := runSteps (iqStep c.nIq) r.sums block
  let values := runSteps (demodStep c.fm) r.prev samples.2
  let audio := runSteps (audStep c.nAud c.scale) r.window values.2
  (⟨samples.1, values.1, audio.1⟩, audio.2)

/-- The stages over a block are the stages over its first word, then over the rest: each stage's loop splits where the
outputs of the stage before it split. -/
theorem pipeStages_cons (c : PipeConfig) (r : PipeRegs) (w : Word) (block : List Word) :
    pipeStages c r (w :: block) =
      ((pipeStages c (pipeStages c r [w]).1 block).1,
        (pipeStages c r [w]).2 ++ (pipeStages c (pipeStages c r [w]).1 block).2) := by
  simp only [pipeStages, runSteps_cons, runSteps_append, runSteps_nil, List.append_nil]

/-- `iq_step` emits a sample only where it completes a group. -/
theorem iqStep_cases (n : Half) (r : SumRegs) (w : Word) :
    (∃ z, iqStep n r w = (SumRegs.zero, [z])) ∨ ∃ sums, iqStep n r w = (sums, []) := by
  simp only [iqStep]
  split
  · exact Or.inl ⟨_, rfl⟩
  · exact Or.inr ⟨_, rfl⟩

/-- One payload word: the sample it completes, if any, goes through a single step of each later stage. -/
theorem pipeStep_eq_pipeStages (c : PipeConfig) (r : PipeRegs) (w : Word) : pipeStep c r w = pipeStages c r [w] := by
  rcases iqStep_cases c.nIq r.sums w with ⟨z, hz⟩ | ⟨sums, hsums⟩
  · cases hfm : c.fm <;>
      simp [pipeStep, pipeStages, pipeSample, runSteps_cons, hz, demodStep, fmStep, amSample, hfm]
  · simp [pipeStep, pipeStages, runSteps_cons, hsums]

theorem runSteps_pipeStep (c : PipeConfig) (r : PipeRegs) (block : List Word) :
    runSteps (pipeStep c) r block = pipeStages c r block := by
  induction block generalizing r with
  | nil => rfl
  | cons w block ih => rw [pipeStages_cons c r w block, runSteps_cons, pipeStep_eq_pipeStages, ih]

/-! ### The commands of the three stages -/

/-- The previous sample and the words that the selected demodulator gives for the payload's decimated samples. -/
def State.demodulated (s : State) : Sample × List Word :=
  runSteps (demodStep s.fmMode) s.fmPrev (iqBlock s.nIq s.payload)

/-- The window and the words that the audio decimator gives for the demodulated words. -/
def State.decimatedAudio (s : State) : Window × List Word :=
  runSteps (audStep s.nAud (audScale s.audGain s.nAud)) s.window s.demodulated.2

theorem length_iqBlock {n : Half} (hn : 0 < n.toNat) (block : List Word) :
    (iqBlock n block).length = block.length / n.toNat := by
  rw [iqBlock_eq hn, groupSamples, List.length_map, List.length_range]

/-- One word per complete group reaches the audio decimator. -/
theorem length_demodulated {s : State} (hn : 0 < s.nIq.toNat) :
    s.demodulated.2.length = s.payload.length / s.nIq.toNat := by
  rw [State.demodulated, length_runSteps_demodStep, length_iqBlock hn]

theorem fmMode_of_mode {s : State} {b : Bool} (h : s.mode.getLsbD 0 = b) : s.fmMode = !b := by rw [State.fmMode, h]

theorem demodulated_am {s : State} (h : s.fmMode = false) : s.demodulated.1 = s.fmPrev := by
  rw [State.demodulated, h, runSteps_demodStep_am]

/-- In AM mode the previous sample is the one FM_PREV holds, so writing it back is writing nothing (R90). -/
theorem writePipe_eq {s : State} {r : PipeRegs} (hprev : s.fmMode = false → r.prev = s.fmPrev) :
    s.writePipe s.pipeConfig r = (s.setFmPrev r.prev).setWindow r.window := by
  have hfm : s.pipeConfig.fm = s.fmMode := rfl
  rw [State.writePipe, hfm]
  cases hmode : s.fmMode with
  | true => rfl
  | false => rw [hprev hmode]; rfl

/-- PIPE once its checks pass: the previous sample and the window of the stages are written back. -/
theorem execPipe_stages {s : State} (hf : s.fits s.payload.length) :
    exec .pipe s = .next
      (((s.setFmPrev s.demodulated.1).setWindow s.decimatedAudio.1).complete .ok s.decimatedAudio.2) := by
  have hprev : s.fmMode = false → (pipeStages s.pipeConfig s.pipeRegs s.payload).1.prev = s.fmPrev := demodulated_am
  rw [execPipe_eq hf, runSteps_pipeStep, writePipe_eq hprev]
  rfl

/-- The selected demodulator as a command on its own: both write back the previous sample of the loop, AMDEM by leaving
FM_PREV alone. -/
theorem exec_demodulator {s : State} {zs : List Sample} (hf : s.fits (2 * zs.length)) :
    exec (demodulator s) { s with payload := sampleWords zs } =
      .next ((s.setFmPrev (runSteps (demodStep s.fmMode) s.fmPrev zs).1).complete .ok
        (runSteps (demodStep s.fmMode) s.fmPrev zs).2) := by
  have heven : (sampleWords zs).length % 2 = 0 := by rw [length_sampleWords]; omega
  have hfits : s.fits (sampleWords zs).length := by rwa [length_sampleWords]
  cases hmode : s.mode.getLsbD 0 with
  | true =>
    have ham : s.fmMode = false := fmMode_of_mode hmode
    rw [demodulator, if_pos hmode, execAmdem_payload hfits heven, complexSamples_sampleWords, ham,
      runSteps_demodStep_am]
    rfl
  | false =>
    have hfm : s.fmMode = true := fmMode_of_mode hmode
    have hexec := execFmdem_eq (s := { s with payload := sampleWords zs }) hfits heven
    rw [demodulator, hmode, if_neg Bool.false_ne_true, hexec, complexSamples_sampleWords, hfm, demodStep_fm]
    rfl

/-- The three commands, each on the output of the one before: every one of them records OK and keeps what the next one
reads. -/
theorem exec_threeStages {s : State} (hn : 0 < s.nIq.toNat) (hf : s.fits s.payload.length)
    (hmid : s.fits (2 * (s.payload.length / s.nIq.toNat))) :
    ∃ (c d : List Word) (u : State),
      exec .iqdec s = .next (s.complete .ok c) ∧
      exec (demodulator s) { s.complete .ok c with payload := c } = .next (u.complete .ok d) ∧
      exec .auddec { u.complete .ok d with payload := d } = .next
        (((s.setFmPrev s.demodulated.1).setWindow s.decimatedAudio.1).complete .ok s.decimatedAudio.2) := by
  have haudio : s.fits s.demodulated.2.length := by
    rw [length_demodulated hn]; exact fits_mono hmid (by omega)
  refine ⟨_, _, _, execIqdec_eq hf, exec_demodulator (s := s.complete .ok _) (by rwa [length_iqBlock hn]), ?auddec⟩
  refine (execAuddec_eq haudio).trans ?_
  simp only [State.complete, State.setFmPrev, State.setWindow, recordCode_ok_ok]
  rfl

/-- Settles O57: with `max_payload` lifted nothing is too long for the middle command, and no stage reads the bound. -/
theorem pipeIsItsThreeStages : Obligations.PipeIsItsThreeStages := by
  intro s hn hf
  refine ⟨fun hmid => ?bounded, ?lifted⟩
  case bounded =>
    obtain ⟨c, d, u, hiq, hdemod, haud⟩ := exec_threeStages hn hf hmid
    exact ⟨c, d, u, _, hiq, hdemod, haud, execPipe_stages hf⟩
  case lifted =>
    have hfits : ∀ len, State.fits { s with maxPayload := none } len := fun len => by
      rw [State.fits, tooLong_eq_any]; rfl
    obtain ⟨c, d, u, hiq, hdemod, haud⟩ :=
      exec_threeStages (s := { s with maxPayload := none }) hn (hfits _) (hfits _)
    exact ⟨c, d, u, _, hiq, hdemod, haud, execPipe_stages hf⟩

/-- The words and the final count of the windows that the demodulated words complete (R84). -/
theorem decimatedAudio_counts {s : State} (hn : 0 < s.nIq.toNat) (hcnt : s.cnt.toNat < s.nAud.toNat) :
    let total := s.cnt.toNat + s.payload.length / s.nIq.toNat
    s.decimatedAudio.2.length = total / s.nAud.toNat ∧
      zext32 s.decimatedAudio.1.cnt = BitVec.ofNat 32 (total % s.nAud.toNat) := by
  rw [State.decimatedAudio, runSteps_audStep_payload hcnt, length_windowWords, zext32_cnt_after_windowRest hcnt,
    State.fullWindows, length_demodulated hn]
  exact ⟨rfl, rfl⟩

/-- Settles O58: the audio decimator counts one word per complete group, and AM mode carries no sample on. -/
theorem pipeWritesWindowAndFmPrevOnly : Obligations.PipeWritesWindowAndFmPrevOnly := by
  intro s hf hn hcnt
  obtain ⟨hwords, hcount⟩ := decimatedAudio_counts hn hcnt
  refine ⟨s.demodulated.1.1, s.demodulated.1.2, s.decimatedAudio.1.acc, s.decimatedAudio.2, ?exec, hwords, ?kept⟩
  case exec => rw [execPipe_stages hf, ← hcount]; rfl
  case kept =>
    intro hmode
    have ham : s.fmMode = false := fmMode_of_mode hmode
    rw [demodulated_am ham]
    exact ⟨rfl, rfl⟩

end Sys2Proof.Machine
end

section
/-! PROOFS. The statements on the control and register-access commands (45_control.md): what NOP and RSTST do, and the
commands that the checks of R101 turn away. -/

namespace Sys2Proof.Machine

/-! ### The first failing check decides (R101) -/

section FirstFailingCheck
variable {s : State} {i : Instr}

/-- Check 3 comes first: an unassigned index is BAD_REG, whatever the payload. -/
theorem exec_badReg (hreg : regAssigned i = false) : exec i s = .next (s.reject .badReg) :=
  exec_rejected (if_pos hreg) (by decide)

/-- Check 4, for an instruction that passes check 3: its payload is above `max_payload`, or not of a length it takes. -/
theorem exec_badLength (hreg : regAssigned i = true)
    (hlen : s.tooLong s.payload.length = true ∨ lengthTaken i s.payload.length = false) :
    exec i s = .next (s.reject .badLength) := by
  have hc : s.check i = .badLength := by
    rcases hlen with hlong | htaken
    · simp [State.check, hreg, hlong]
    · simp [State.check, hreg, htaken]
  exact exec_rejected hc (by decide)

/-- Check 4 for the operations that take no payload (NOP, RDREG and RSTST). -/
theorem exec_unwanted_payload (hreg : regAssigned i = true) (hi : ∀ len, lengthTaken i len = (len == 0))
    (hp : s.payload ≠ []) : exec i s = .next (s.reject .badLength) :=
  exec_badLength hreg (.inr (by simpa [hi] using hp))

end FirstFailingCheck

theorem regOf_isSome_eq_false_iff (idx : BitVec 8) : (regOf idx).isSome = false ↔ 8 < idx.toNat := by
  rw [← Bool.not_eq_true, regOf_isSome_iff, not_le]

/-! ### The statements -/

/-- Settles O25: the three clauses are checks 3, 4 and 5 in turn, the last one read off the legal numbers of R94. -/
theorem wrregRejects : Obligations.WrregRejects := by
  intro s idx
  refine ⟨fun hidx => ?badReg, fun hidx hlen => ?badLength, fun v hidx hp hf hv => ?badValue⟩
  case badReg => exact exec_badReg ((regOf_isSome_eq_false_iff idx).2 hidx)
  case badLength =>
    have htaken : s.payload.length ≠ 1 → lengthTaken (.wrreg idx) s.payload.length = false := beq_false_of_ne
    exact exec_badLength ((regOf_isSome_iff idx).2 hidx) (hlen.symm.imp_right htaken)
  case badValue =>
    obtain ⟨r, hr⟩ := Option.isSome_iff_exists.1 ((regOf_isSome_iff idx).2 hidx)
    exact execWrreg_badValue hr hp hf ((legalWrite_eq_legalNumber s idx r v hr).trans hv)

/-- Settles O18: an empty payload passes the checks, any other fails check 4. -/
theorem nopOnlyCompletes : Obligations.NopOnlyCompletes :=
  fun _ => ⟨execNop_eq, exec_unwanted_payload rfl fun _ => rfl⟩

/-- Settles O20: the index is checked before the payload. -/
theorem rdregRejects : Obligations.RdregRejects := by
  intro s idx
  refine ⟨fun hidx => ?badReg, fun hidx hp => ?badLength⟩
  case badReg => exact exec_badReg ((regOf_isSome_eq_false_iff idx).2 hidx)
  case badLength => exact exec_unwanted_payload ((regOf_isSome_iff idx).2 hidx) (fun _ => rfl) hp

/-- Settles O29: an empty payload passes the checks, and `newStream` writes the four registers; any other payload fails
check 4. -/
theorem rststStartsANewStream : Obligations.RststStartsANewStream :=
  fun _ => ⟨execRstst_eq, exec_unwanted_payload rfl fun _ => rfl⟩

end Sys2Proof.Machine
end

section
/-! PROOFS. The statements on rejection, completion and the order of a command (60_exceptions.md): the answer is the
first failing check's code, a rejection writes STATUS alone, completion records the code, and every step goes on. -/

namespace Sys2Proof.Machine

/-! ### The checks of a decoded command in the numbers of its word (R101) -/

/-- Item 3: RDREG and WRREG, the operations with a register operand, need an assigned one. -/
theorem regAssigned_eq_false_iff (i : Instr) :
    regAssigned i = false ↔ (i.op.toNat = 6 ∨ i.op.toNat = 7) ∧ 8 < i.reg.toNat := by
  cases i with
  | rdreg idx | wrreg idx => simpa [regAssigned, Instr.op, Instr.reg] using regOf_isSome_eq_false_iff idx
  | _ => simp [regAssigned, Instr.op]

/-- Item 4, `max_payload` apart: the lengths that an operation does not take. -/
theorem lengthTaken_eq_false_iff (i : Instr) (len : Nat) :
    lengthTaken i len = false ↔
      ((i.op.toNat = 0 ∨ i.op.toNat = 6 ∨ i.op.toNat = 8) ∧ len ≠ 0) ∨ (i.op.toNat = 7 ∧ len ≠ 1) ∨
        ((i.op.toNat = 2 ∨ i.op.toNat = 3) ∧ len % 2 = 1) := by
  cases i <;> simp [lengthTaken, Instr.op]

/-- Item 5, for an instruction that passes items 3 and 4: WRREG data is legal for its register. -/
theorem dataLegal_eq_false_iff {s : State} {i : Instr} (hreg : regAssigned i = true)
    (hlen : lengthTaken i s.payload.length = true) :
    s.dataLegal i = false ↔
      i.op.toNat = 7 ∧ legalNumber (s.audN.toNat % 65536) i.reg.toNat (s.payload.headD 0).toNat = false := by
  cases i with
  | wrreg idx =>
    obtain ⟨r, hr⟩ := Option.isSome_iff_exists.1 hreg
    obtain ⟨v, hv⟩ := List.length_eq_one_iff.1 (beq_iff_eq.1 hlen)
    simp [State.dataLegal, hr, hv, legalWrite_eq_legalNumber s idx r v hr, Instr.op, Instr.reg]
  | _ => simp [State.dataLegal, Instr.op]

section CheckList
variable {s : State} {c : Command}

/-- Items 1 and 2 are what decoding rejects. -/
theorem specCheck_of_decode_error {code : ResultCode} (h : decode c.word = .error code) : specCheck s c = code := by
  by_cases hop : 9 ≤ c.word.toNat % 16
  · obtain rfl := Except.error.inj ((decode_eq_illegalOp hop).symm.trans h)
    exact if_pos hop
  by_cases hbits : c.word.toNat / 4096 ≠ 0 ∨
      (c.word.toNat % 16 ≠ 6 ∧ c.word.toNat % 16 ≠ 7 ∧ c.word.toNat / 16 % 256 ≠ 0)
  · obtain rfl := Except.error.inj ((decode_eq_rsvdBits (not_le.1 hop) hbits).symm.trans h)
    exact (if_neg hop).trans (if_pos hbits)
  · obtain ⟨i, hrow⟩ := exists_instrOf (not_le.1 hop)
    rw [decode_of_instrOf_toNat hrow, if_pos (by omega)] at h
    cases h

/-- The fields of a word that decodes, as numbers: its row in the table, its operand, and no reserved bit. -/
theorem toNat_fields_of_decode {w : Word} {i : Instr} (h : decode w = .ok i) :
    w.toNat % 16 = i.op.toNat ∧ w.toNat / 16 % 256 = i.reg.toNat ∧ w.toNat / 4096 = 0 := by
  obtain ⟨hop, hreg, hrsvd⟩ := decode_eq_ok_iff.1 h
  exact ⟨by rw [← toNat_opField, hop], by rw [← toNat_regField, hreg], (rsvdField_eq_zero_iff w).1 hrsvd⟩

/-- A word that decodes passes items 1 and 2, which leaves items 3 to 5. -/
theorem specCheck_items_3_to_5 {i : Instr} (h : decode c.word = .ok i) :
    specCheck s c =
      if regAssigned i = false then .badReg
      else if s.tooLong c.payload.length = true ∨ lengthTaken i c.payload.length = false then .badLength
      else if i.op.toNat = 7 ∧ legalNumber (s.audN.toNat % 65536) i.reg.toNat (c.payload.headD 0).toNat = false then
        .badValue
      else .ok := by
  obtain ⟨hop, hreg, hrsvd⟩ := toNat_fields_of_decode h
  obtain ⟨-, -, -, hlegal⟩ := encodedFields i
  have hbits : ¬(0 ≠ 0 ∨ (i.op.toNat ≠ 6 ∧ i.op.toNat ≠ 7 ∧ i.reg.toNat ≠ 0)) := by
    have huses := usesReg_iff i
    rintro (h0 | ⟨h6, h7, h0⟩)
    · exact h0 rfl
    · exact h0 (congrArg BitVec.toNat (reg_eq_zero (by simpa [h6, h7] using huses)))
  simp only [specCheck, hop, hreg, hrsvd]
  rw [if_neg hlegal.not_ge, if_neg hbits]
  simp only [← regAssigned_eq_false_iff, ← tooLong_eq_any, lengthTaken_eq_false_iff, ite_or]

/-- Items 3 to 5 are the checks of the decoded instruction. -/
theorem specCheck_of_decode_ok {i : Instr} (h : decode c.word = .ok i) : specCheck s c = (s.present c).check i := by
  rw [specCheck_items_3_to_5 h]
  rcases check_cases (s.present c) i with ⟨hreg, hc⟩ | ⟨hreg, hbad, hc⟩ | ⟨hreg, hfits, htaken, hdata, hc⟩ |
      ⟨hreg, hfits, htaken, hdata, hc⟩
  case inl => rw [hc, if_pos hreg]
  all_goals rw [hc, if_neg (ne_false_of_eq_true hreg)]
  case inr.inl => exact if_pos hbad
  all_goals
    have hlen : ¬(s.tooLong c.payload.length = true ∨ lengthTaken i c.payload.length = false) :=
      not_or.2 ⟨Bool.eq_false_iff.1 hfits, ne_false_of_eq_true htaken⟩
    have hlegal := dataLegal_eq_false_iff hreg htaken
    rw [if_neg hlen]
  case inr.inr.inl => exact if_pos (hlegal.1 hdata)
  case inr.inr.inr => exact if_neg (mt hlegal.2 (ne_false_of_eq_true hdata))

end CheckList

/-! ### The step of a command (R102) -/

theorem step_idle {s : State} (h : s.host = []) : step s = .next s := by
  simp [step, h]

theorem exec_goesOn (i : Instr) (s : State) : ∃ t, exec i s = .next t := by
  rcases exec_cases i s with ⟨-, u, out, h⟩ | ⟨-, h⟩
  · exact ⟨_, h⟩
  · exact ⟨_, h⟩

theorem step_goesOn (s : State) : ∃ t, step s = .next t := by
  match hhost : s.host with
  | [] => exact ⟨_, step_idle hhost⟩
  | .reset :: rest => exact ⟨_, step_reset hhost⟩
  | .command c :: rest =>
    cases hd : decode c.word with
    | ok i => rw [step_decoded hhost hd]; exact exec_goesOn i _
    | error code => exact ⟨_, step_undecoded hhost hd⟩

/-- The state in which a command runs: its move taken and its payload presented. -/
def State.received (s : State) (c : Command) (rest : List HostMove) : State := { s with host := rest }.present c

/-- Everything the step of a command can do: it fails a check and is rejected with its code, or it fails none, and its
instruction completes with OK. -/
theorem step_command_cases {s t : State} {c : Command} {rest : List HostMove} (hhost : s.host = .command c :: rest)
    (h : step s = .next t) :
    (specCheck s c ≠ .ok ∧ t = (s.received c rest).reject (specCheck s c)) ∨
    (specCheck s c = .ok ∧ ∃ i out, decode c.word = .ok i ∧ (s.received c rest).check i = .ok ∧
      exec i (s.received c rest) = .next t ∧ t.answer = some ⟨codeByte .ok, out⟩) := by
  cases hd : decode c.word with
  | error code =>
    rw [step_undecoded hhost hd] at h
    rw [specCheck_of_decode_error hd]
    refine Or.inl ⟨?_, (Host.Outcome.next.inj h).symm⟩
    rcases decode_error hd with rfl | rfl
    · decide
    · decide
  | ok i =>
    rw [step_decoded hhost hd] at h
    have hcheck : specCheck s c = (s.received c rest).check i := specCheck_of_decode_ok hd
    rw [hcheck]
    rcases exec_cases i (s.received c rest) with ⟨hok, u, out, hexec⟩ | ⟨hbad, hexec⟩
    · exact Or.inr ⟨hok, i, out, rfl, hok, h, Host.Outcome.next.inj (hexec.symm.trans h) ▸ rfl⟩
    · exact Or.inl ⟨hbad, Host.Outcome.next.inj (h.symm.trans hexec)⟩

/-! ### What an accepted command does to STATUS (R17, R104) -/

theorem regOf_eq_status_iff (idx : BitVec 8) : regOf idx = some .status ↔ idx = 0x08 := by
  revert idx; decide

theorem writeReg_keeps_status {r : Reg} (h : r ≠ .status) (s : State) (v : Word) :
    (s.writeReg r v).status = s.status := by
  cases r with
  | status => exact absurd rfl h
  | _ => rfl

theorem writePipe_status (s : State) (c : PipeConfig) (r : PipeRegs) : (s.writePipe c r).status = s.status := by
  unfold State.writePipe
  split
  · rfl
  · rfl

/-- The one command whose effect writes STATUS: a `WRREG STATUS` of a word with bit 8 set. -/
def ClearsSticky (c : Command) : Prop := c.word = 0x00000087#32 ∧ ∃ v, c.payload = [v] ∧ v.getLsbD 8 = true

theorem encode_eq_wrreg_status_iff (i : Instr) : encode i = 0x00000087#32 ↔ i = .wrreg 0x08 := by
  constructor
  · intro h
    exact Except.ok.inj ((decode_encode i).symm.trans (h ▸ decode_encode (.wrreg 0x08)))
  · rintro rfl
    rfl

/-- A write clears ERR_STICKY exactly if it is to STATUS and its word has bit 8 set. -/
theorem clearsSticky_wrreg_iff {idx : BitVec 8} {r : Reg} (hr : regOf idx = some r) (v : Word) :
    ClearsSticky ⟨encode (.wrreg idx), [v]⟩ ↔ r = .status ∧ v.getLsbD 8 = true := by
  rw [ClearsSticky, encode_eq_wrreg_status_iff, Instr.wrreg.injEq, ← regOf_eq_status_iff, hr, Option.some_inj]
  simp

/-- The STATUS that a write leaves to its completion. -/
theorem writeReg_status_cases (s : State) (r : Reg) (v : Word) :
    ((r = .status ∧ v.getLsbD 8 = true) ∧ (s.writeReg r v).status = clearSticky s.status) ∨
    (¬(r = .status ∧ v.getLsbD 8 = true) ∧ (s.writeReg r v).status = s.status) := by
  by_cases hr : r = .status
  · subst hr
    rw [writeReg_status]
    cases v.getLsbD 8 with
    | true => exact Or.inl ⟨⟨rfl, rfl⟩, rfl⟩
    | false => exact Or.inr ⟨fun ⟨_, hbit⟩ => Bool.false_ne_true hbit, rfl⟩
  · exact Or.inr ⟨fun ⟨hstatus, _⟩ => hr hstatus, writeReg_keeps_status hr s v⟩

section AcceptedStatus
variable {s t : State} {i : Instr} (hc : s.check i = .ok)
include hc

theorem status_of_issue {run : State → State × List Word} (h : s.issue i run = .next t) :
    t.status = recordCode .ok (run s).1.status := by
  rw [issue_ok hc] at h
  rw [← Host.Outcome.next.inj h, complete_status]

/-- Every operation but WRREG leaves STATUS to its completion. -/
theorem status_of_exec (hi : ∀ idx, i ≠ .wrreg idx) (h : exec i s = .next t) : t.status = recordCode .ok s.status := by
  cases i with
  | nop =>
    rw [exec, execNop] at h
    exact status_of_issue hc h
  | iqdec =>
    rw [exec, execIqdec] at h
    exact status_of_issue hc h
  | fmdem =>
    rw [exec, execFmdem] at h
    exact status_of_issue hc h
  | amdem =>
    rw [exec, execAmdem] at h
    exact status_of_issue hc h
  | auddec =>
    rw [exec, execAuddec] at h
    exact status_of_issue hc h
  | pipe =>
    rw [exec, execPipe] at h
    exact (status_of_issue hc h).trans (congrArg _ (writePipe_status s _ _))
  | rdreg idx =>
    rw [exec, execRdreg] at h
    exact (status_of_issue hc h).trans (by cases regOf idx <;> rfl)
  | wrreg idx => exact absurd rfl (hi idx)
  | rstst =>
    rw [exec, execRstst] at h
    exact status_of_issue hc h

/-- Only the one command clears ERR_STICKY; every other leaves STATUS to its completion. -/
theorem status_of_accepted (h : exec i s = .next t) :
    (ClearsSticky ⟨encode i, s.payload⟩ ∧ t.status = recordCode .ok (clearSticky s.status)) ∨
    (¬ClearsSticky ⟨encode i, s.payload⟩ ∧ t.status = recordCode .ok s.status) := by
  by_cases hi : ∃ idx, i = .wrreg idx
  · obtain ⟨idx, rfl⟩ := hi
    obtain ⟨r, v, hr, hv, -⟩ := check_wrreg_ok hc
    rw [exec, execWrreg] at h
    have hstatus : t.status = recordCode .ok (s.writeReg r v).status := by
      simpa only [hr, hv] using status_of_issue hc h
    rw [hstatus, hv, clearsSticky_wrreg_iff hr]
    exact (writeReg_status_cases s r v).imp (And.imp_right (congrArg _)) (And.imp_right (congrArg _))
  · refine Or.inr ⟨fun ⟨hword, _⟩ => hi ⟨0x08, ?_⟩, status_of_exec hc (not_exists.1 hi) h⟩
    exact (encode_eq_wrreg_status_iff i).1 hword

end AcceptedStatus

/-- STATUS after a command: its code is recorded, over a cleared ERR_STICKY if the command is accepted and clears it,
and over the STATUS before if not. -/
theorem status_of_command {s t : State} {c : Command} {rest : List HostMove} {a : Answer}
    (hhost : s.host = .command c :: rest) (h : step s = .next t) (ha : t.answer = some a) :
    ((ClearsSticky c ∧ a.code = 0) ∧ t.status = recordCode .ok (clearSticky s.status)) ∨
    (¬(ClearsSticky c ∧ a.code = 0) ∧ ∃ code, a.code = codeByte code ∧ t.status = recordCode code s.status) := by
  rcases step_command_cases hhost h with ⟨hbad, rfl⟩ | ⟨-, i, out, hd, hok, hexec, hanswer⟩
  · obtain rfl := Option.some.inj ha
    exact Or.inr ⟨fun ⟨_, hcode⟩ => hbad ((codeByte_eq_zero_iff _).1 hcode), _, rfl, rfl⟩
  · obtain rfl := Option.some.inj (hanswer.symm.trans ha)
    have hword : encode i = c.word := encodeOfDecodeIsTheWord _ _ hd
    have hstatus := status_of_accepted hok hexec
    rw [hword] at hstatus
    exact hstatus.imp (And.imp_left fun hclears => ⟨hclears, rfl⟩)
      (And.imp (mt And.left) fun hkept => ⟨.ok, rfl, hkept⟩)

/-! ### The fields of STATUS together -/

/-- A STATUS word whose fields and reserved bits are all 0 is 0. -/
theorem status_eq_zero {status : Word} (hcode : lastCode status = 0) (hsticky : errSticky status = false)
    (hupper : status.extractLsb' 9 23 = 0) : status = 0 := by
  rw [lastCode, extract_eq_zero_iff] at hcode
  rw [errSticky, BitVec.getLsbD, Nat.testBit_eq_decide_div_mod_eq, decide_eq_false_iff_not] at hsticky
  rw [extract_eq_zero_iff] at hupper
  have := status.isLt
  exact BitVec.eq_of_toNat_eq (by simp; omega)

/-! ### The statements -/

/-- Settles O8: a failing check is the code of the rejection, and a command that fails none completes with OK. -/
theorem answerIsTheFirstFailingCheck : Obligations.AnswerIsTheFirstFailingCheck := by
  intro s c rest hhost
  obtain ⟨t, hstep⟩ := step_goesOn s
  rcases step_command_cases hhost hstep with ⟨-, rfl⟩ | ⟨hok, i, out, -, -, -, hanswer⟩
  · exact ⟨_, [], hstep, rfl⟩
  · exact ⟨t, out, hstep, by rw [hok, hanswer]⟩

/-- Settles O9: a code other than OK comes from a rejection, which writes STATUS alone. -/
theorem rejectionIsPrecise : Obligations.RejectionIsPrecise := by
  intro s t c rest a hhost hstep ha hcode
  rcases step_command_cases hhost hstep with ⟨-, rfl⟩ | ⟨-, i, out, -, -, -, hanswer⟩
  · obtain rfl := Option.some.inj ha
    exact ⟨rfl, rfl⟩
  · obtain rfl := Option.some.inj (hanswer.symm.trans ha)
    exact absurd rfl hcode

/-- Settles O10: the fields of a recorded code, over a cleared ERR_STICKY or over the STATUS before. -/
theorem completionRecordsTheCode : Obligations.CompletionRecordsTheCode := by
  intro s t c rest a hhost hstep ha clears
  have hclears : clears ↔ ClearsSticky c ∧ a.code = 0 := and_assoc.symm
  rw [hclears]
  rcases status_of_command hhost hstep ha with ⟨⟨hcl, hcode⟩, hstatus⟩ | ⟨hcl, code, hcode, hstatus⟩
  case inl =>
    have hupper : t.status.extractLsb' 9 23 = s.status.extractLsb' 9 23 := by
      rw [hstatus, upper_recordCode, upper_clearSticky]
    have hlast : lastCode t.status = 0 := by rw [hstatus, lastCode_recordCode]; rfl
    have hsticky : errSticky t.status = false := by rw [hstatus, errSticky_recordCode, errSticky_clearSticky]; rfl
    exact ⟨hlast.trans hcode.symm, by simp [hsticky, hcl, hcode], hupper,
      fun _ hrsvd => status_eq_zero hlast hsticky (hupper.trans hrsvd)⟩
  case inr =>
    have herr : a.code ≠ 0 ↔ code ≠ .ok := by rw [hcode]; exact (codeByte_eq_zero_iff code).not
    have hsticky : errSticky t.status = true ↔ code ≠ .ok ∨ errSticky s.status = true := by
      rw [hstatus, errSticky_recordCode, Bool.or_eq_true, decide_eq_true_iff]
    have hupper : t.status.extractLsb' 9 23 = s.status.extractLsb' 9 23 := by rw [hstatus, upper_recordCode]
    exact ⟨by rw [hstatus, lastCode_recordCode, hcode], by rw [hsticky, herr, and_iff_left hcl], hupper,
      fun hcleared => absurd hcleared hcl⟩

/-- Settles O5: presenting the payload is writing the payload field. -/
theorem stepRunsTheDecodedCommand : Obligations.StepRunsTheDecodedCommand :=
  fun _ _ _ _ hhost hd => step_decoded hhost hd

/-- Settles O11: the first case of the step. -/
theorem idleBlockChangesNothing : Obligations.IdleBlockChangesNothing := fun _ => step_idle

/-- Settles O12: each of the step's cases answers a next state, a meaning and a rejection among them. -/
theorem everyStepGoesOn : Obligations.EveryStepGoesOn := step_goesOn

/-- Settles O59: both clauses are check 4, which a data command reaches since it has no register operand. -/
theorem dataCommandsRejectBadLengths : Obligations.DataCommandsRejectBadLengths := by
  intro s
  refine ⟨fun hodd => ?odd, fun i hi hlong => ?long⟩
  case odd =>
    have htaken : (s.payload.length % 2 == 0) = false := by simp [hodd]
    exact ⟨exec_badLength rfl (.inr htaken), exec_badLength rfl (.inr htaken)⟩
  case long =>
    have hreg : regAssigned i = true := by
      simp only [List.mem_cons, List.not_mem_nil, or_false] at hi
      rcases hi with rfl | rfl | rfl | rfl | rfl <;> rfl
    exact exec_badLength hreg (.inl hlong)

end Sys2Proof.Machine
end

section
/-! PROOFS. The statements on reset and the order of commands (70_reset_and_hazards.md): the values the reset input leaves,
their legality, and the read of a register right after a write to it. -/

namespace Sys2Proof.Machine

/-! ### A register read after a write to it (R29, R118) -/

/-- An index that names a register is that register's index: no two indices name the same one (R9). -/
theorem eq_regIndex_of_regOf {idx : BitVec 8} {r : Reg} (h : regOf idx = some r) : idx = regIndex r := by
  rcases regOf_cases idx with ⟨rfl, hr⟩ | ⟨rfl, hr⟩ | ⟨rfl, hr⟩ | ⟨rfl, hr⟩ | ⟨rfl, hr⟩ | ⟨rfl, hr⟩ | ⟨rfl, hr⟩ |
      ⟨rfl, hr⟩ | ⟨rfl, hr⟩ | ⟨-, hr⟩
  on_goal 10 => exact absurd (hr.symm.trans h) (Option.some_ne_none r).symm
  all_goals
    obtain rfl := Option.some.inj (hr.symm.trans h)
    rfl

/-- Each of the indices 0 to 7 is the index of a register other than STATUS. -/
theorem exists_regIndex {idx : BitVec 8} (h : idx.toNat ≤ 7) : ∃ r, r ≠ .status ∧ idx = regIndex r := by
  obtain ⟨r, hr⟩ := Option.isSome_iff_exists.1 ((regOf_isSome_iff idx).2 (h.trans (by decide)))
  refine ⟨r, fun hstatus => ?status, eq_regIndex_of_regOf hr⟩
  case status =>
    rw [hstatus, regOf_eq_status_iff] at hr
    exact absurd h (by simp [hr])

section WrittenRegister
variable {s : State} {r : Reg} {v : Word} (hr : r ≠ .status)
include hr

/-- A legal word has no reserved bit set. STATUS is left out: what is written to it is not what it stores (R17). -/
theorem toNat_lt_of_legalWrite (hl : s.legalWrite r v = true) : v.toNat < 2 ^ fieldWidth r := by
  cases r with
  | iqN => exact (legalWrite_iqN_iff.1 hl).2
  | audN => exact (legalWrite_audN_iff.1 hl).2
  | mode => exact legalWrite_mode_iff.1 hl
  | audCnt => exact (legalWrite_audCnt_iff.1 hl).trans (Nat.mod_lt _ (by decide))
  | audGain | fmPrevRe | fmPrevIm | audAcc => exact v.isLt
  | status => exact absurd rfl hr

theorem stored_afterWrite : (s.afterWrite r v).stored r = v := by
  cases r with
  | status => exact absurd rfl hr
  | _ => rfl

theorem readValue_afterWrite (hl : s.legalWrite r v = true) : (s.afterWrite r v).readValue r = v := by
  have hstored : (s.afterWrite r v).stored r = v := stored_afterWrite hr
  have hfield : ((s.afterWrite r v).stored r).toNat < 2 ^ fieldWidth r := by
    rw [hstored]; exact toNat_lt_of_legalWrite hr hl
  rw [readValue_eq_stored hfield, hstored]

end WrittenRegister

/-- `RDREG` of a register as the host's next move. -/
theorem step_cmdRead {s : State} {r : Reg} {rest : List HostMove} (hhost : s.host = .command (cmdRead r) :: rest) :
    step s = .next ({ s with host := rest }.complete .ok [s.readValue r]) := by
  have hread : ({ s with host := rest }.present (cmdRead r)).readValue r = s.readValue r := by cases r <;> rfl
  rw [step_decoded hhost (decode_encode _), execRdreg_eq (regOf_regIndex r) rfl, hread]
  rfl

/-- Settles O26: the write stores a word without reserved bits, and the read that follows gives the stored word. -/
theorem writeThenReadGivesTheWordBack : Obligations.WriteThenReadGivesTheWordBack := by
  intro s idx v rest hidx hf hlegal hhost
  obtain ⟨r, hr, rfl⟩ := exists_regIndex hidx
  have hl : s.legalWrite r v = true := (legalWrite_eq_legalNumber s _ r v (regOf_regIndex r)).trans hlegal
  have hwrite : step s = .next (s.afterWrite r v) := step_cmdWrite hhost hf hl
  have hhost' : (s.afterWrite r v).host = .command (cmdRead r) :: rest := by rw [afterWrite_host, hhost]; rfl
  have hread := step_cmdRead hhost'
  rw [readValue_afterWrite hr hl] at hread
  exact ⟨_, (run_succ 1 hwrite).trans (run_succ 0 hread), rfl, rfl⟩

/-! ### The reset input (R115, R117) -/

/-- Settles O14: a reset assertion writes the reset values of R24 and takes its own move off the host's. -/
theorem resetMoveSetsEveryRegister : Obligations.ResetMoveSetsEveryRegister := by
  intro s rest hhost
  exact ⟨_, step_reset hhost, rfl, rfl, rfl, rfl, rfl, rfl, rfl, rfl, rfl, rfl⟩

/-- Settles O16: both factors are 1, so the window counter 0 is below the audio factor; all else is 0 but the gain. -/
theorem resetStateIsLegal : Obligations.ResetStateIsLegal := reset_legal

end Sys2Proof.Machine
end
